-- ==== Sys2Proof/Word.lean ====
section
/-! DEFINITION. The word types of the block: `u8`, `u32` and `u64` of spec/00_scope.md R10. -/

namespace Sys2Proof

/-- A byte, 8 bits (R10). -/
abbrev Byte := BitVec 8

/-- A word, 32 bits: the width of every register, of every port access and of SHA-1's arithmetic (R9, R10). -/
abbrev Word := BitVec 32

/-- A 64-bit unsigned number: the counter and the time (R9). -/
abbrev DWord := BitVec 64

end Sys2Proof
end

