-- ==== Sys2Proof/Syntax.lean ====
section
/-! DEFINITION. The commands, one constructor per row of spec/opcode_table.json (spec/30_encoding.md R50). -/

namespace Sys2Proof

/-- A command of the block. "The command word carries no operand, no immediate, no register number and no mode bits"
(R49): every operand is taken from the operand registers the command names. -/
inductive Instr where
  /-- `HOTP`: the source's `computeCode(secretBytes, counter)` (R88). -/
  | hotp
  /-- `TOTP`: the source's `generateOTP`, from the time-to-counter derivation onward (R89). -/
  | totp
  /-- `VERIFY`: the source's `verifyOTP`, from the time-to-counter derivation onward (R90). -/
  | verify
  /-- `CLEAR`: zeroise the secret and every per-call value (R91). -/
  | clear
  deriving DecidableEq, Repr

end Sys2Proof
end

