-- ==== Sys2Proof/WellFormed.lean ====
section
/-! DEFINITION. Which commands are well-formed. A command has no operand field (spec/30_encoding.md R49, R52), so there is
no value an encoding could not hold and every term of `Instr` is well-formed. What can be ill-formed is a command WORD;
the decoder's two checks (the `ZERO` field, the opcode map) refuse such a word by name. -/

namespace Sys2Proof

/-- Every command is well-formed: none carries a field (R49). -/
def Instr.wellFormed : Instr → Bool
  | .hotp => true
  | .totp => true
  | .verify => true
  | .clear => true

end Sys2Proof
end

