-- ==== Sys2Proof/Decode.lean ====
section
/-! DEFINITION. The command word: its fields, the opcode map, the decoder (total on every 32-bit word, refusing by name)
and the encoder (spec/30_encoding.md R49 to R52). The word is a 32-bit number the port transfers; how it lies on a bus's
byte lanes is invisible here (spec/20_memory.md R41). -/

namespace Sys2Proof

/-- Field `ZERO`, bits 31:8 of a command word (R49). -/
def zeroField (w : Word) : BitVec 24 := w.extractLsb' 8 24

/-- Field `OPCODE`, bits 7:0 of a command word (R49). -/
def opcodeField (w : Word) : BitVec 8 := w.extractLsb' 0 8

/-- Why a command word is illegal (R51). -/
inductive DecodeError where
  /-- `ZERO != 0`, with any opcode. -/
  | zeroFieldSet (field : BitVec 24)
  /-- `OPCODE` 0x00 or 0x05 .. 0xFF. -/
  | reservedOpcode (opcode : BitVec 8)
  deriving DecidableEq, Repr

/-- The opcode map (R50). -/
def opcodeOf : Instr → BitVec 8
  | .hotp => 0x01#8
  | .totp => 0x02#8
  | .verify => 0x03#8
  | .clear => 0x04#8

/-- The command an opcode selects; the reserved opcodes select none (R50, R51). -/
def commandOf (opcode : BitVec 8) : Option Instr :=
  if opcode = 0x01#8 then some .hotp
  else if opcode = 0x02#8 then some .totp
  else if opcode = 0x03#8 then some .verify
  else if opcode = 0x04#8 then some .clear
  else none

/-- "A decoder tells the command from `OPCODE` alone, after checking `ZERO`" (R49). -/
def decode (w : Word) : Except DecodeError Instr :=
  if zeroField w ≠ 0#24 then .error (.zeroFieldSet (zeroField w))
  else match commandOf (opcodeField w) with
    | some i => .ok i
    | none => .error (.reservedOpcode (opcodeField w))

/-- The full word of a command: `ZERO` and its opcode (R49, R50). -/
def encode (i : Instr) : Word := 0x000000#24 ++ opcodeOf i

/-- A row of the opcode map as R50 prints it: "`match` is the whole word and `mask` is 0xFFFFFFFF for every row". -/
structure OpcodeRow where
  mnemonic : String
  instr : Instr
  pattern : Word
  mask : Word
  deriving DecidableEq, Repr

/-- The opcode map of R50, row by row. -/
def opcodeTable : List OpcodeRow :=
  [⟨"HOTP", .hotp, 0x00000001#32, 0xFFFFFFFF#32⟩,
   ⟨"TOTP", .totp, 0x00000002#32, 0xFFFFFFFF#32⟩,
   ⟨"VERIFY", .verify, 0x00000003#32, 0xFFFFFFFF#32⟩,
   ⟨"CLEAR", .clear, 0x00000004#32, 0xFFFFFFFF#32⟩]

/-- Whether a word is of a row's form. -/
def OpcodeRow.covers (r : OpcodeRow) (w : Word) : Bool := w &&& r.mask == r.pattern

/-- What the decoder reads from an instruction whose bits are `w`, numbered as spec/opcode_table.json numbers them, of
which the table gives the low `nbits`. "A command is always exactly one 32-bit write to `CMD`" (R52), so a longer word is
no instruction (log entry 11). -/
def decodeTableWord (nbits w : Nat) : Option Instr :=
  if nbits ≤ 32 then
    match decode (BitVec.ofNat 32 (w % 2 ^ nbits)) with
    | .ok i => some i
    | .error _ => none
  else none

end Sys2Proof
end

