-- ==== Sys2Proof/Machine/Bytes.lean ====
section
/-! DEFINITION. Byte order and bit-field helpers: `be32`, `word`, `rotl32` of spec/00_scope.md R10 and the big-endian
layout of spec/20_memory.md R41. A byte string is a list of bytes; `s[0]` is its first byte. -/

namespace Sys2Proof.Machine

/-- Byte `i` of a byte string. Every use is inside the string; past its end this reads 0 (log entry 13). -/
def byteAt (s : List Byte) (i : Nat) : Byte := s.getD i 0#8

/-- The word whose bytes, most significant first, are the four given (R10, R41). -/
def joinBytes (b0 b1 b2 b3 : Byte) : Word := b0 ++ b1 ++ b2 ++ b3

/-- `be32(w)`: the four bytes of a word, most significant first (R10). -/
def be32 (w : Word) : List Byte :=
  [w.extractLsb' 24 8, w.extractLsb' 16 8, w.extractLsb' 8 8, w.extractLsb' 0 8]

/-- `word(s, i)`: the word whose `be32` is bytes `s[4i .. 4i+3]` (R10). -/
def word (s : List Byte) (i : Nat) : Word :=
  joinBytes (byteAt s (4 * i)) (byteAt s (4 * i + 1)) (byteAt s (4 * i + 2)) (byteAt s (4 * i + 3))

/-- `rotl32(x, n) = ((x << n) | (x >> (32 - n))) mod 2^32` for 0 < n < 32 (R10). -/
def rotl32 (x : Word) (n : Nat) : Word := (x <<< n) ||| (x >>> (32 - n))

/-- A 64-bit value from its two registers: `(HI << 32) | LO` (R11, R53). -/
def join64 (hi lo : Word) : DWord := hi ++ lo

/-- `HI = v[63:32]` (R53). -/
def hi32 (v : DWord) : Word := v.extractLsb' 32 32

/-- `LO = v[31:0]` (R53). -/
def lo32 (v : DWord) : Word := v.extractLsb' 0 32

/-- One bit, as the 0 or 1 it contributes to a register (R10). -/
def bitWord (b : Bool) : Word := (BitVec.ofBool b).setWidth 32

/-- `str0(s) = (s[0] << 24) | (s[1] << 16) | (s[2] << 8) | s[3]`: characters 0 to 3 of a code or token string (R76, R82). -/
def str0 (s : List Byte) : Word := joinBytes (byteAt s 0) (byteAt s 1) (byteAt s 2) (byteAt s 3)

/-- `str1(s) = (s[4] << 24) | (s[5] << 16)`: characters 4 and 5; bits 15:0 are 0 (R76, R82). -/
def str1 (s : List Byte) : Word := joinBytes (byteAt s 4) (byteAt s 5) 0#8 0#8

end Sys2Proof.Machine
end

