-- ==== Sys2Proof/Config.lean ====
section
/-! DEFINITION. The parameters of the block with the values spec/00_scope.md R9 gives them. "No other parameter
exists" (R9). The two parameters R9 leaves OPEN have no constant here: `LATENCY` is the place of the engine's steps in
the input list of State (log entry 2), and on `BUS_PROTOCOL` no rule depends (log entry 3). -/

namespace Sys2Proof.Config

/-- `ID_VALUE`, the constant read from `ID` (R9, R16). -/
def idValue : Word := 0x32464131#32

/-- `TIMESTEP_DEFAULT`, the reset value of `TIMESTEP` in seconds (R9, R20). -/
def timeStepDefault : Word := 30#32

/-- `WINDOW_DEFAULT`, the reset value of `WINDOW` (R9, R21). -/
def windowDefault : Word := 1#32

/-- `KEY_MAX`, the largest secret in bytes the key buffer holds (R9, R24). -/
def keyMax : Nat := 64

/-- `WINDOW_MAX`, the largest legal `WINDOW` (R9, R21). -/
def windowMax : Nat := 255

/-- `MODULUS`, by which the truncated integer is reduced (R9, R75). -/
def modulus : Nat := 1000000

/-- `DIGITS`, the decimal digits of a code (R9). -/
def digits : Nat := 6

/-- `BLOCK_BYTES`, the SHA-1 block size (R9). -/
def blockBytes : Nat := 64

/-- Bytes of the register file: `ADDR_BITS` is 8 (R9, R39). -/
def spaceBytes : Nat := 0x100

/-- Bytes of the only access the port carries (R9 `REG_BITS`, R43). -/
def accessBytes : Nat := 4

end Sys2Proof.Config
end

