-- ==== Sys2Proof/Machine/State.lean ====
section
/-! DEFINITION. The state of the block (spec/10_state.md R13: the list there is complete), the events the three agents
can cause (spec/00_scope.md R7), the reasons a step can stop, and the state right after reset (R37). -/

namespace Sys2Proof.Machine

/-- The sequencer: "the only control state of the block", in the place of a program counter (R15). -/
inductive Seq where
  | idle
  | run (op : Instr)
  deriving DecidableEq, Repr

/-- The stored fields of `STATUS`; `BUSY` is not stored (R18). -/
structure Status where
  done : Bool
  error : Bool
  matched : Bool
  wrIgn : Bool
  errCode : BitVec 4
  lastOp : BitVec 8
  deriving DecidableEq, Repr

/-- The stored bits of `CTRL`; `SRST` is an action and is not stored (R19). -/
structure Ctrl where
  ieDone : Bool
  ieError : Bool
  deriving DecidableEq, Repr

/-- The operand registers (R20 to R27). `token1` keeps its unimplemented bits 15:0 at 0 (R27). -/
structure Operands where
  timeStep : Word
  window : Word
  timeHi : Word
  timeLo : Word
  counterHi : Word
  counterLo : Word
  keyLen : Word
  tokLen : Word
  token0 : Word
  token1 : Word
  key : Vector Word 16
  deriving DecidableEq, Repr

/-- The result registers, written only by the engine (R28 to R33). -/
structure Results where
  digest : Vector Word 5
  offset : Word
  trunc : Word
  codeVal : Word
  codeStr0 : Word
  codeStr1 : Word
  deriving DecidableEq, Repr

/-- One event of one agent (R7). -/
inductive Event where
  /-- The host reads `n` bytes at byte offset `off`: `MemRead(off, n)` (R11, R94). -/
  | read (off n : Nat)
  /-- The host writes `v`, `n` bytes wide, at byte offset `off`: `MemWrite(off, n, v)` (R11, R95). -/
  | write (off n : Nat) (v : Word)
  /-- The engine takes its step, if it has one (R87). -/
  | engine
  /-- The reset source asserts `rst_n` (R118). -/
  | rstLow
  /-- The reset source releases `rst_n` (R118). -/
  | rstHigh
  deriving DecidableEq, Repr

/-- The state of the machine. The first five fields are the spec's (R13); the last three are the model's own: the level
of `rst_n` (log entry 7), the events still to come, oldest first (log entry 1), and the values host reads have returned,
newest first (log entry 8). -/
structure State where
  seq : Seq
  status : Status
  ctrl : Ctrl
  ops : Operands
  res : Results
  rstN : Bool
  inputs : List Event
  returned : List Word
  deriving DecidableEq, Repr

/-- What stops the machine with a fault. No command does. -/
inductive Fault where
  /-- The port was given an aligned word access at byte offset 0x100 or above, which is "not decoded by the block"
  (R34). Raised by `hostRead` and `hostWrite`. Safe: the model goes no further (log entry 5). -/
  | outsideBlock
  deriving DecidableEq, Repr

/-- What the model gives no meaning. No command does. -/
inductive Refusal where
  /-- The instruction has no meaning yet. Raised by no arm of `exec`: every command has its meaning. Safe. -/
  | notModelled (mnemonic : String)
  /-- "A byte, halfword, burst or misaligned access is not a transaction of this port" (R43). Raised by `hostRead` and
  `hostWrite`. Safe: the model goes no further (log entry 4). -/
  | notATransaction
  deriving DecidableEq, Repr

/-- The outcome of one step of this machine. -/
abbrev Result := Host.Outcome State Fault Refusal

/-- All ten result registers zero (R28, R37). -/
def Results.zero : Results :=
  { digest := Vector.replicate 5 0#32, offset := 0#32, trunc := 0#32, codeVal := 0#32, codeStr0 := 0#32, codeStr1 := 0#32 }

/-- The operand registers after a reset (R37). -/
def Operands.reset : Operands :=
  { timeStep := Config.timeStepDefault, window := Config.windowDefault, timeHi := 0#32, timeLo := 0#32,
    counterHi := 0#32, counterLo := 0#32, keyLen := 0#32, tokLen := 0#32, token0 := 0#32, token1 := 0#32,
    key := Vector.replicate 16 0#32 }

/-- `STATUS` after a reset (R37). -/
def Status.reset : Status :=
  { done := false, error := false, matched := false, wrIgn := false, errCode := 0#4, lastOp := 0x00#8 }

/-- `CTRL` after a reset (R37). -/
def Ctrl.reset : Ctrl := { ieDone := false, ieError := false }

/-- The machine right after a hardware reset: every register at the value of R37, `rst_n` released, no event pending and
nothing read yet (log entries 1, 7 and 8). -/
def State.reset : State :=
  { seq := .idle, status := Status.reset, ctrl := Ctrl.reset, ops := Operands.reset, res := Results.zero,
    rstN := true, inputs := [], returned := [] }

end Sys2Proof.Machine
end

