-- ==== Sys2Proof/Machine/Flags.lean ====
section
/-! DEFINITION. The status flags and control bits: the words the host reads, write-1-to-clear, the `CTRL` write, and the
interrupt output (spec/10_state.md R18, R19; spec/44_host_access.md R94, R98, R99; spec/60_exceptions.md R111). -/

namespace Sys2Proof.Machine

/-- `STATUS.BUSY`, 1 exactly when `SEQ != IDLE`; not stored (R18). -/
def busy (s : State) : Bool := s.seq != .idle

/-- The value a read of `STATUS` returns: `(LASTOP << 16) | (ERRCODE << 8) | (WRIGN << 4) | (MATCH << 3) | (ERROR << 2) |
(DONE << 1) | BUSY` (R94). -/
def statusWord (s : State) : Word :=
  (s.status.lastOp.setWidth 32 <<< 16) ||| (s.status.errCode.setWidth 32 <<< 8) ||| (bitWord s.status.wrIgn <<< 4)
    ||| (bitWord s.status.matched <<< 3) ||| (bitWord s.status.error <<< 2) ||| (bitWord s.status.done <<< 1)
    ||| bitWord (busy s)

/-- The value a read of `CTRL` returns: `(IE_ERROR << 1) | IE_DONE` (R94). -/
def ctrlWord (c : Ctrl) : Word := (bitWord c.ieError <<< 1) ||| bitWord c.ieDone

/-- `irq = (DONE & IE_DONE) | (ERROR & IE_ERROR)` (R111). -/
def irq (s : State) : Bool := (s.status.done && s.ctrl.ieDone) || (s.status.error && s.ctrl.ieError)

/-- A write to `STATUS`: bit 1 clears `DONE`, bit 2 clears `ERROR` and `ERRCODE` together, bit 4 clears `WRIGN`; a written
0 and every other bit change nothing (R98). -/
def clearFlags (v : Word) (f : Status) : Status :=
  { f with
    done := f.done && !v.getLsbD 1
    error := f.error && !v.getLsbD 2
    errCode := if v.getLsbD 2 then 0#4 else f.errCode
    wrIgn := f.wrIgn && !v.getLsbD 4 }

/-- The enables a `CTRL` write without `SRST` stores: bits 0 and 1 (R99). -/
def ctrlOf (v : Word) : Ctrl := { ieDone := v.getLsbD 0, ieError := v.getLsbD 1 }

end Sys2Proof.Machine
end

