-- ==== Sys2Proof/Machine/Operands.lean ====
section
/-! DEFINITION. How the commands read and write their operands: 64-bit pairs, the key buffer and the padded key, and how
results are read out (spec/30_encoding.md R53 to R57; spec/40_counter_sha1_hmac.md R69). -/

namespace Sys2Proof.Machine

/-- `R64[TIME]` (R11, R22). -/
def Operands.time (o : Operands) : DWord := join64 o.timeHi o.timeLo

/-- `R64[COUNTER]` (R11, R23). -/
def Operands.counter (o : Operands) : DWord := join64 o.counterHi o.counterLo

/-- `R64[COUNTER] <- v`, both halves at once (R11). -/
def Operands.setCounter (o : Operands) (v : DWord) : Operands := { o with counterHi := hi32 v, counterLo := lo32 v }

/-- `R64[TIME] <- v`, both halves at once (R11). -/
def Operands.setTime (o : Operands) (v : DWord) : Operands := { o with timeHi := hi32 v, timeLo := lo32 v }

/-- `R[KEYw]`, for w 0 to 15 (R25). -/
def Operands.keyWord (o : Operands) (w : Nat) : Word := o.key.toList.getD w 0#32

/-- `KEYBYTE(i) = (R[KEY(i div 4)] >> (24 - 8*(i mod 4))) & 0xFF`, 0 <= i < 64 (R55). -/
def Operands.keyByte (o : Operands) (i : Nat) : Byte := (o.keyWord (i / 4) >>> (24 - 8 * (i % 4))).setWidth 8

/-- The padded key `K0`: `KEYBYTE(i)` for i < `KEYLEN`, 0 up to the block's 64 bytes; the key buffer's bytes at positions
>= `KEYLEN` are masked off whatever they hold (R69). -/
def Operands.paddedKey (o : Operands) : List Byte :=
  (List.range Config.blockBytes).map fun i => if i < o.keyLen.toNat then o.keyByte i else 0#8

/-- The code string a host reads out after `HOTP` or `TOTP`: `be32(R[CODE_STR0]) || be32(R[CODE_STR1])[0..1]` (R57). -/
def Results.codeString (r : Results) : List Byte := be32 r.codeStr0 ++ (be32 r.codeStr1).take 2

/-- The 20 digest bytes a host reads out: `be32(R[DIGEST0]) || ... || be32(R[DIGEST4])` (R57). -/
def Results.digestBytes (r : Results) : List Byte := r.digest.toList.flatMap be32

end Sys2Proof.Machine
end

