-- ==== Sys2Proof/Machine/Ops.lean ====
section
/-! DEFINITION. The named operations over the registers: the offset map (spec/10_state.md R14), the reads and stores of
single registers (spec/44_host_access.md R94, R96), the error entry (spec/60_exceptions.md R108) with the return from it
(R109), the reset (spec/70_reset_and_hazards.md R118, R119), and the two ends of a command that all commands share
(spec/43_commands.md R85, R87). -/

namespace Sys2Proof.Machine

/-- The operand registers by name (R20 to R27). -/
inductive OperandReg where
  | timeStep | window | timeHi | timeLo | counterHi | counterLo | keyLen | tokLen | token0 | token1
  | key (n : Fin 16)
  deriving DecidableEq, Repr

/-- The result registers by name (R29 to R33). -/
inductive ResultReg where
  | digest (n : Fin 5)
  | offset | trunc | codeVal | codeStr0 | codeStr1
  deriving DecidableEq, Repr

/-- What a word offset of the block selects (R14, R34). -/
inductive Reg where
  | id | cmd | status | ctrl
  | operand (r : OperandReg)
  | result (r : ResultReg)
  | reserved
  deriving DecidableEq, Repr

/-- The rows of the control registers: byte offset and register (R14). -/
def controlRows : List (Nat × Reg) := [(0x00, .id), (0x04, .cmd), (0x08, .status), (0x0C, .ctrl)]

/-- The rows of the operand registers but for the key buffer (R14). -/
def operandRows : List (Nat × Reg) :=
  [(0x10, .operand .timeStep), (0x14, .operand .window), (0x18, .operand .timeHi), (0x1C, .operand .timeLo),
   (0x20, .operand .counterHi), (0x24, .operand .counterLo), (0x28, .operand .keyLen), (0x2C, .operand .tokLen),
   (0x30, .operand .token0), (0x34, .operand .token1)]

/-- The rows `0x40 + 4n`, n = 0..15, of the key buffer (R14). -/
def keyRows : List (Nat × Reg) := (List.finRange 16).map fun n => (0x40 + 4 * n.val, Reg.operand (.key n))

/-- The rows `0x80 + 4n`, n = 0..4, of the digest (R14). -/
def digestRows : List (Nat × Reg) := (List.finRange 5).map fun n => (0x80 + 4 * n.val, Reg.result (.digest n))

/-- The rows of the other result registers (R14). -/
def resultRows : List (Nat × Reg) :=
  [(0x94, .result .offset), (0x98, .result .trunc), (0x9C, .result .codeVal), (0xA0, .result .codeStr0),
   (0xA4, .result .codeStr1)]

/-- The register map (R14). -/
def registerMap : List (Nat × Reg) := controlRows ++ (operandRows ++ (keyRows ++ (digestRows ++ resultRows)))

/-- The register at a byte offset (R14); an offset without a row holds none (R34). -/
def regAt (off : Nat) : Reg := (registerMap.lookup off).getD .reserved

/-- The byte offset of an operand register (R14). -/
def OperandReg.byteOffset : OperandReg → Nat
  | .timeStep => 0x10
  | .window => 0x14
  | .timeHi => 0x18
  | .timeLo => 0x1C
  | .counterHi => 0x20
  | .counterLo => 0x24
  | .keyLen => 0x28
  | .tokLen => 0x2C
  | .token0 => 0x30
  | .token1 => 0x34
  | .key n => 0x40 + 4 * n.val

/-- The byte offset of a result register (R14). -/
def ResultReg.byteOffset : ResultReg → Nat
  | .digest n => 0x80 + 4 * n.val
  | .offset => 0x94
  | .trunc => 0x98
  | .codeVal => 0x9C
  | .codeStr0 => 0xA0
  | .codeStr1 => 0xA4

/-- The byte offset of a register (R14); 0x38 stands for the reserved offsets, the first of them (R34). -/
def Reg.byteOffset : Reg → Nat
  | .id => 0x00
  | .cmd => 0x04
  | .status => 0x08
  | .ctrl => 0x0C
  | .operand r => r.byteOffset
  | .result r => r.byteOffset
  | .reserved => 0x38

/-- The value stored in an operand register. -/
def Operands.get (o : Operands) : OperandReg → Word
  | .timeStep => o.timeStep
  | .window => o.window
  | .timeHi => o.timeHi
  | .timeLo => o.timeLo
  | .counterHi => o.counterHi
  | .counterLo => o.counterLo
  | .keyLen => o.keyLen
  | .tokLen => o.tokLen
  | .token0 => o.token0
  | .token1 => o.token1
  | .key n => o.key[n]

/-- The store of R96: all 32 bits, and for `TOKEN1` bits 31:16 only; no legality check. -/
def Operands.put (o : Operands) (v : Word) : OperandReg → Operands
  | .timeStep => { o with timeStep := v }
  | .window => { o with window := v }
  | .timeHi => { o with timeHi := v }
  | .timeLo => { o with timeLo := v }
  | .counterHi => { o with counterHi := v }
  | .counterLo => { o with counterLo := v }
  | .keyLen => { o with keyLen := v }
  | .tokLen => { o with tokLen := v }
  | .token0 => { o with token0 := v }
  | .token1 => { o with token1 := v &&& 0xFFFF0000#32 }
  | .key n => { o with key := o.key.set n.val v n.isLt }

/-- The value stored in a result register. -/
def Results.get (r : Results) : ResultReg → Word
  | .digest n => r.digest[n]
  | .offset => r.offset
  | .trunc => r.trunc
  | .codeVal => r.codeVal
  | .codeStr0 => r.codeStr0
  | .codeStr1 => r.codeStr1

/-- What a host read of an operand register returns: the stored value, but 0 for every `KEYn`, "whatever is stored"
(R25, R94). -/
def readOperand (o : Operands) (r : OperandReg) : Word :=
  match r with
  | .key _ => 0#32
  | r => o.get r

/-- The value a host read returns, by register (R94). -/
def readReg (s : State) : Reg → Word
  | .id => Config.idValue
  | .cmd => 0#32
  | .status => statusWord s
  | .ctrl => ctrlWord s.ctrl
  | .operand r => readOperand s.ops r
  | .result r => s.res.get r
  | .reserved => 0#32

/-- The errors of the block (R102). -/
inductive Err where
  | invalidArgument
  | invalidSecret
  | illegalCommand
  deriving DecidableEq, Repr

/-- The number of an error in `ERRCODE` (R102). -/
def Err.code : Err → BitVec 4
  | .invalidArgument => 1#4
  | .invalidSecret => 2#4
  | .illegalCommand => 3#4

/-- Error entry, `raise E`: `ERROR` is set and `ERRCODE` says why; `SEQ` stays as it is; nothing is saved elsewhere and
there is no handler, mode or mask (R108). -/
def raise (e : Err) (s : State) : State :=
  { s with status := { s.status with error := true, errCode := e.code } }

/-- The write of `STATUS`: the host's way to return from an error (R109) and to acknowledge `DONE` and `WRIGN` (R98). -/
def writeStatus (v : Word) (s : State) : State := { s with status := clearFlags v s.status }

/-- What every write to `CMD` taken in `IDLE` does before its checks: flags and results cleared, `LASTOP` the low byte
(R85). -/
def beginCommand (low : BitVec 8) (s : State) : State :=
  { s with
    status := { s.status with done := false, error := false, errCode := 0#4, matched := false, lastOp := low }
    res := Results.zero }

/-- A refused command: the clearing every `CMD` write performs, then the error entry (R85, R108). -/
def refuse (low : BitVec 8) (e : Err) (s : State) : State := raise e (beginCommand low s)

/-- Acceptance of command `i`, with the error its checks found, if any (R85). -/
def accept (i : Instr) (problem : Option Err) (s : State) : State :=
  match problem with
  | some e => refuse (opcodeOf i) e s
  | none => { beginCommand (opcodeOf i) s with seq := .run i }

/-- The end of every completion: `DONE <- 1 ; SEQ <- IDLE` (R87). -/
def finish (s : State) : State := { s with seq := .idle, status := { s.status with done := true } }

/-- A write to a locked register while `SEQ != IDLE`: ignored, with `WRIGN <- 1` (R97). -/
def ignoreLocked (s : State) : State := { s with status := { s.status with wrIgn := true } }

/-- A write to an operand register: stored in `IDLE`, ignored and flagged otherwise (R95, R96, R97). -/
def writeOperand (r : OperandReg) (v : Word) (s : State) : State :=
  match s.seq with
  | .idle => { s with ops := s.ops.put v r }
  | .run _ => ignoreLocked s

/-- Every piece of the block's state at its reset value (R118, R119); the pin, the pending events and the values already
returned are not the block's state and stay (log entry 16). -/
def resetBlock (s : State) : State :=
  { State.reset with rstN := s.rstN, inputs := s.inputs, returned := s.returned }

/-- A write to `CTRL`: the soft reset if bit 31 is set, else the two enables are stored (R99, R119). -/
def writeCtrl (v : Word) (s : State) : State :=
  if v.getLsbD 31 then resetBlock s else { s with ctrl := ctrlOf v }

end Sys2Proof.Machine
end

