-- ==== Sys2Proof/Machine/Sha1.lean ====
section
/-! DEFINITION. The counter encoder, SHA-1 and HMAC-SHA1: the pure functions of spec/40_counter_sha1_hmac.md R61 to R71. -/

namespace Sys2Proof.Machine

/-- `BE64(c)`: `m[i] = (c >> (8 * (7 - i))) & 0xFF`, i = 0 .. 7 (R61). -/
def be64 (c : DWord) : List Byte := (List.range 8).map fun i => (c >>> (8 * (7 - i))).setWidth 8

/-- The five words of a chaining value, and of the round variables (R64, R67). -/
structure Chain where
  a : Word
  b : Word
  c : Word
  d : Word
  e : Word
  deriving DecidableEq, Repr

/-- The five words in order. -/
def Chain.words (h : Chain) : List Word := [h.a, h.b, h.c, h.d, h.e]

/-- The 20 bytes `be32(H[0]) || ... || be32(H[4])` (R68). -/
def Chain.bytes (h : Chain) : List Byte := be32 h.a ++ be32 h.b ++ be32 h.c ++ be32 h.d ++ be32 h.e

/-- The initial chaining value (R64). -/
def sha1Init : Chain := ⟨0x67452301#32, 0xEFCDAB89#32, 0x98BADCFE#32, 0x10325476#32, 0xC3D2E1F0#32⟩

/-- The next word of a message schedule given the words so far, the latest first:
`rotl32(W[t-3] ^ W[t-8] ^ W[t-14] ^ W[t-16], 1)` (R65). -/
def nextScheduleWord (latest : List Word) : Word :=
  rotl32 (latest.getD 2 0#32 ^^^ latest.getD 7 0#32 ^^^ latest.getD 13 0#32 ^^^ latest.getD 15 0#32) 1

/-- `n` more words of a message schedule, the latest first. -/
def growSchedule : Nat → List Word → List Word
  | 0, latest => latest
  | n + 1, latest => growSchedule n (nextScheduleWord latest :: latest)

/-- The 80 words of the message schedule of a block given as its 16 words (R65). -/
def schedule (block : List Word) : List Word := (growSchedule 64 (block.take 16).reverse).reverse

/-- The round function `f(t; b, c, d)` (R66). -/
def roundFun (t : Nat) (b c d : Word) : Word :=
  if t < 20 then (b &&& c) ||| (~~~b &&& d)
  else if t < 40 then b ^^^ c ^^^ d
  else if t < 60 then (b &&& c) ||| (b &&& d) ||| (c &&& d)
  else b ^^^ c ^^^ d

/-- The round constant `K(t)` (R66). -/
def roundConst (t : Nat) : Word :=
  if t < 20 then 0x5A827999#32
  else if t < 40 then 0x6ED9EBA1#32
  else if t < 60 then 0x8F1BBCDC#32
  else 0xCA62C1D6#32

/-- One round: the five assignments use the values from before the round (R67). -/
def sha1Round (t : Nat) (w : Word) (h : Chain) : Chain :=
  { a := rotl32 h.a 5 + roundFun t h.b h.c h.d + h.e + roundConst t + w
    b := h.a
    c := rotl32 h.b 30
    d := h.c
    e := h.d }

/-- The rounds from round `t` on, one for each word of the schedule that is left (R67). -/
def sha1Rounds : Nat → List Word → Chain → Chain
  | _, [], h => h
  | t, w :: ws, h => sha1Rounds (t + 1) ws (sha1Round t w h)

/-- The word by word sum modulo 2^32 that ends a compression (R67). -/
def Chain.add (g h : Chain) : Chain := ⟨g.a + h.a, g.b + h.b, g.c + h.c, g.d + h.d, g.e + h.e⟩

/-- `COMPRESS` of a block given as its 16 words (R67, R71). -/
def compressWords (h : Chain) (block : List Word) : Chain := h.add (sha1Rounds 0 (schedule block) h)

/-- The 16 words `word(B, 0) .. word(B, 15)` of a 64-byte block (R62). -/
def blockWords (block : List Byte) : List Word := (List.range 16).map (word block)

/-- `COMPRESS(H, B)` (R67). -/
def compress (h : Chain) (block : List Byte) : Chain := compressWords h (blockWords block)

/-- The number of zero bytes of the padding, "the least non-negative integer with `(L + 1 + z) mod 64 = 56`" (R63). -/
def padZeros (len : Nat) : Nat := (119 - len % 64) % 64

/-- `PAD(M)`: M, the byte 0x80, the zero bytes, and the length in bits as 8 big-endian bytes (R63). -/
def pad (m : List Byte) : List Byte :=
  m ++ [0x80#8] ++ List.replicate (padZeros m.length) 0#8 ++ be64 (BitVec.ofNat 64 (8 * m.length))

/-- `n` blocks of a message folded in, in order: `H_i = f(H_{i-1}, B_i)` (R68, with `f` the compression). -/
def foldBlocks (f : Chain → List Byte → Chain) : Nat → List Byte → Chain → Chain
  | 0, _, h => h
  | n + 1, m, h => foldBlocks f n (m.drop Config.blockBytes) (f h (m.take Config.blockBytes))

/-- The five words of `SHA1(M)`: "Seen as five words, the digest is `H_N` itself" (R68). -/
def sha1Chain (m : List Byte) : Chain :=
  foldBlocks compress ((pad m).length / Config.blockBytes) (pad m) sha1Init

/-- `SHA1(M)`, 20 bytes (R62, R68). -/
def sha1 (m : List Byte) : List Byte := (sha1Chain m).bytes

/-- `K0[i] ^ 0x36` (R70). -/
def ipad (k0 : List Byte) : List Byte := k0.map (· ^^^ 0x36#8)

/-- `K0[i] ^ 0x5C` (R70). -/
def opad (k0 : List Byte) : List Byte := k0.map (· ^^^ 0x5C#8)

/-- `HMAC_SHA1(K0, m)`, 20 bytes (R70). -/
def hmacSha1 (k0 m : List Byte) : List Byte := sha1 (opad k0 ++ sha1 (ipad k0 ++ m))

end Sys2Proof.Machine
end

