-- ==== Sys2Proof/Machine/Truncation.lean ====
section
/-! DEFINITION. The truncation pipeline and the code rendering: the pure functions of spec/41_truncation_code.md R73 to
R77. A digest is a byte string of 20 bytes. -/

namespace Sys2Proof.Machine

/-- `DT_OFFSET`: `digest[19] & 0x0F`, 0 .. 15 (R73). -/
def dtOffset (digest : List Byte) : Nat := (byteAt digest 19 &&& 0x0F#8).toNat

/-- `DT_TRUNC`: the four bytes at the offset, the top bit of the first masked off (R74). -/
def dtTrunc (digest : List Byte) : Word :=
  ((byteAt digest (dtOffset digest) &&& 0x7F#8).setWidth 32 <<< 24)
    ||| ((byteAt digest (dtOffset digest + 1) &&& 0xFF#8).setWidth 32 <<< 16)
    ||| ((byteAt digest (dtOffset digest + 2) &&& 0xFF#8).setWidth 32 <<< 8)
    ||| (byteAt digest (dtOffset digest + 3) &&& 0xFF#8).setWidth 32

/-- `CODE_OF`: `truncated mod 1_000_000` (R75). -/
def codeOf (truncated : Word) : Nat := truncated.toNat % Config.modulus

/-- `DEC6`: `s[i] = 0x30 + (floor(code / 10^(5-i)) mod 10)`, i = 0 .. 5 (R76). -/
def dec6 (code : Nat) : List Byte :=
  (List.range Config.digits).map fun i => 0x30#8 + BitVec.ofNat 8 (code / 10 ^ (5 - i) % 10)

/-- What the `HOTP` function answers (R77). -/
structure HotpResult where
  digest : List Byte
  offset : Nat
  truncated : Word
  code : Nat
  str : List Byte
  deriving DecidableEq, Repr

/-- Steps 3 to 5 of the source's algorithm, on the digest (R73 to R76). -/
def truncate (digest : List Byte) : HotpResult :=
  { digest := digest
    offset := dtOffset digest
    truncated := dtTrunc digest
    code := codeOf (dtTrunc digest)
    str := dec6 (codeOf (dtTrunc digest)) }

/-- `HOTP(K0, c)`, the source's `computeCode` as a pure function (R77). -/
def hotp (k0 : List Byte) (c : DWord) : HotpResult := truncate (hmacSha1 k0 (be64 c))

/-- The ten result registers as a completion of `HOTP` or `TOTP` writes them (R88, R29 to R33). -/
def HotpResult.registers (r : HotpResult) : Results :=
  { digest := #v[word r.digest 0, word r.digest 1, word r.digest 2, word r.digest 3, word r.digest 4]
    offset := BitVec.ofNat 32 r.offset
    trunc := r.truncated
    codeVal := BitVec.ofNat 32 r.code
    codeStr0 := str0 r.str
    codeStr1 := str1 r.str }

end Sys2Proof.Machine
end

