-- ==== Sys2Proof/Machine/Window.lean ====
section
/-! DEFINITION. The time-to-counter derivation, the window walk and the comparator: the pure functions of
spec/42_time_window_compare.md R79 to R82. -/

namespace Sys2Proof.Machine

/-- `BASE_COUNTER(time, step) = floor(time / step)`, unsigned (R79). "step is never 0 here because the command checks it
first"; for step 0 this gives 0, and no statement rests on that (log entry 13). -/
def baseCounter (time : DWord) (step : Word) : DWord := BitVec.ofNat 64 (time.toNat / step.toNat)

/-- One candidate of the window: `base + offset` in unbounded integers, and whether it is a counter (R80). -/
structure Candidate where
  cand : Int
  inRange : Bool
  deriving DecidableEq, Repr

/-- Candidate j: `cand_j = base + (j - W)`, `inrange_j = (0 <= cand_j < 2^64)` (R80). -/
def candidateAt (base : DWord) (w j : Nat) : Candidate :=
  let cand : Int := (base.toNat : Int) + ((j : Int) - (w : Int))
  { cand := cand, inRange := decide (0 ≤ cand) && decide (cand < 18446744073709551616) }

/-- `CANDIDATES(base, W)`: the 2W + 1 candidates, ascending from `-W` (R80). -/
def candidates (base : DWord) (w : Nat) : List Candidate := (List.range (2 * w + 1)).map (candidateAt base w)

/-- `CTEQ6`: differences of the length and of all six bytes are OR-ed, and tested once (R81). -/
def cteq6 (tokLen tok0 tok1 s0 s1 : Word) : Bool :=
  (tokLen ^^^ 6#32) ||| (tok0 ^^^ s0) ||| ((tok1 ^^^ s1) &&& 0xFFFF0000#32) == 0#32

/-- The submitted token as the comparator reads it (R56, R81). -/
structure Token where
  len : Word
  tok0 : Word
  tok1 : Word
  deriving DecidableEq, Repr

/-- The token registers (R26, R27). -/
def Operands.token (o : Operands) : Token := ⟨o.tokLen, o.token0, o.token1⟩

/-- Whether a token equals a code string (R81, R82). -/
def Token.equals (t : Token) (str : List Byte) : Bool := cteq6 t.len t.tok0 t.tok1 (str0 str) (str1 str)

/-- `eq & inrange` of one candidate; the datapath holds the 64-bit pattern of the candidate, whether or not it is in
range (R82). -/
def candidateMatches (k0 : List Byte) (t : Token) (c : Candidate) : Bool :=
  t.equals (hotp k0 (BitVec.ofInt 64 c.cand)).str && c.inRange

/-- `WINDOW_MATCH`: every candidate is evaluated and the results are OR-ed, with no early exit (R82). -/
def windowMatch (k0 : List Byte) (base : DWord) (w : Nat) (t : Token) : Bool :=
  (candidates base w).foldl (fun m c => m || candidateMatches k0 t c) false

end Sys2Proof.Machine
end

