-- ==== Sys2Proof/Machine/Commands.lean ====
section
/-! DEFINITION. The four commands (spec/43_commands.md R85 to R91). A command has two moments: its acceptance, when the
host's write of its word finds `SEQ = IDLE`, and its completion, the engine's step while `SEQ = RUN(op)`. The meaning of a
command is its next moment; which one that is stands in `SEQ` (log entry 12). -/

namespace Sys2Proof.Machine

/-- The check of `TIMESTEP` by the commands that read it: `InvalidArgument` if it is 0 or bit 31 is set (R85, R103). -/
def timeStepError (o : Operands) : Option Err :=
  if o.timeStep = 0#32 ∨ o.timeStep.getLsbD 31 = true then some .invalidArgument else none

/-- The check of `WINDOW` by `VERIFY`: `InvalidArgument` if it is above 255, unsigned, which includes bit 31 set
(R85, R103). -/
def windowError (o : Operands) : Option Err :=
  if Config.windowMax < o.window.toNat then some .invalidArgument else none

/-- The check of `KEYLEN` by the commands that use the key: `InvalidSecret` if it is 0 or above 64 (R85, R104). -/
def keyError (o : Operands) : Option Err :=
  if o.keyLen = 0#32 ∨ Config.keyMax < o.keyLen.toNat then some .invalidSecret else none

/-- The checks of `HOTP` (R88). -/
def hotpChecks (o : Operands) : Option Err := keyError o

/-- The checks of `TOTP`, in the order of R107 (R89). -/
def totpChecks (o : Operands) : Option Err := (timeStepError o).or (keyError o)

/-- The checks of `VERIFY`, in the order of R107 (R90). -/
def verifyChecks (o : Operands) : Option Err := (timeStepError o).or ((windowError o).or (keyError o))

/-- `CLEAR` looks at nothing (R85, R91). -/
def clearChecks (_ : Operands) : Option Err := none

/-- The checks a command makes at acceptance; the first that fails is the error raised (R85, R107). -/
def checksOf (i : Instr) (o : Operands) : Option Err :=
  match i with
  | .hotp => hotpChecks o
  | .totp => totpChecks o
  | .verify => verifyChecks o
  | .clear => clearChecks o

/-- The effect of `HOTP` at completion: the ten result registers from the padded key and `R64[COUNTER]` (R88). -/
def hotpEffect (s : State) : State := { s with res := (hotp s.ops.paddedKey s.ops.counter).registers }

/-- `R64[COUNTER] <- BASE_COUNTER(R64[TIME], R[TIMESTEP])` (R89, R90). -/
def storeBase (s : State) : State :=
  { s with ops := s.ops.setCounter (baseCounter s.ops.time s.ops.timeStep) }

/-- The effect of `TOTP` at completion: the base counter, then the effect of `HOTP` with the new `R64[COUNTER]` (R89). -/
def totpEffect (s : State) : State := hotpEffect (storeBase s)

/-- The effect of `VERIFY` at completion: the base counter and `MATCH`; no result register is written (R90). -/
def verifyEffect (s : State) : State :=
  { storeBase s with
    status := { s.status with
      matched := windowMatch s.ops.paddedKey (baseCounter s.ops.time s.ops.timeStep) s.ops.window.toNat s.ops.token } }

/-- The effect of `CLEAR` at completion: the key and its length, the token and its length, the time and the counter
(R91). -/
def clearEffect (s : State) : State :=
  { s with
    ops := { s.ops with
      key := Vector.replicate 16 0#32, keyLen := 0#32, tokLen := 0#32, token0 := 0#32, token1 := 0#32
      timeHi := 0#32, timeLo := 0#32, counterHi := 0#32, counterLo := 0#32 } }

/-- What a completion does before its end (R87). -/
def effectOf (i : Instr) (s : State) : State :=
  match i with
  | .hotp => hotpEffect s
  | .totp => totpEffect s
  | .verify => verifyEffect s
  | .clear => clearEffect s

/-- The next moment of command `i`: acceptance in `IDLE` (R85), completion when it is the command in flight (R87). While
another command is in flight `i` is not queued, started or aborted, and `WRIGN` is set (R97); `step` never asks for that
case here (log entry 12). -/
def command (i : Instr) (checks : Operands → Option Err) (effect : State → State) (s : State) : Result :=
  match s.seq with
  | .idle => .next (accept i (checks s.ops) s)
  | .run j => if j = i then .next (finish (effect s)) else .next (ignoreLocked s)

/-- `HOTP` (R88). -/
def execHotp (s : State) : Result := command .hotp hotpChecks hotpEffect s

/-- `TOTP` (R89). -/
def execTotp (s : State) : Result := command .totp totpChecks totpEffect s

/-- `VERIFY` (R90). -/
def execVerify (s : State) : Result := command .verify verifyChecks verifyEffect s

/-- `CLEAR` (R91). -/
def execClear (s : State) : Result := command .clear clearChecks clearEffect s

end Sys2Proof.Machine
end

