-- ==== Sys2Proof/Machine/Access.lean ====
section
/-! DEFINITION. The host's accesses through the register port (spec/44_host_access.md R94 to R100), the engine's step
(spec/43_commands.md R87), the reset pin (spec/70_reset_and_hazards.md R118), and the service of one event. -/

namespace Sys2Proof.Machine

/-- A write to `CMD`. In `IDLE` a legal word is the acceptance of its command and every other word raises
`IllegalCommand` (R85, R105); otherwise it is ignored with `WRIGN`, whatever the word (R97, R107). -/
def writeCmd (v : Word) (s : State) : Result :=
  match s.seq with
  | .idle =>
    match decode v with
    | .ok i => exec i s
    | .error _ => .next (refuse (opcodeField v) .illegalCommand s)
  | .run _ => .next (ignoreLocked s)

/-- A host write by register: the dispatch of R95. A write to `ID`, to a result register or to a reserved offset is
ignored, without `WRIGN` (R100). -/
def writeReg (v : Word) (s : State) : Reg → Result
  | .status => .next (writeStatus v s)
  | .ctrl => .next (writeCtrl v s)
  | .cmd => writeCmd v s
  | .operand r => .next (writeOperand r v s)
  | .id => .next s
  | .result _ => .next s
  | .reserved => .next s

/-- Whether an access is a transaction of the port: exactly 32 bits, at an offset whose two low bits are 0 (R43). -/
def isTransaction (off n : Nat) : Bool := n == Config.accessBytes && off % 4 == 0

/-- Whether the block decodes an offset (R34, R39). -/
def inBlock (off : Nat) : Bool := decide (off < Config.spaceBytes)

/-- `MemRead(off, n)`: the value is returned to the host and no state of the block changes (R45, R94). -/
def hostRead (off n : Nat) (s : State) : Result :=
  if isTransaction off n = false then .refused .notATransaction
  else if inBlock off = false then .fault .outsideBlock
  else .next { s with returned := readReg s (regAt off) :: s.returned }

/-- `MemWrite(off, n, v)` (R95). -/
def hostWrite (off n : Nat) (v : Word) (s : State) : Result :=
  if isTransaction off n = false then .refused .notATransaction
  else if inBlock off = false then .fault .outsideBlock
  else writeReg v s (regAt off)

/-- The engine's step: the completion of the command in flight; in `IDLE` the engine has none (R7, R87). -/
def engineStep (s : State) : Result :=
  match s.seq with
  | .idle => .next s
  | .run i => exec i s

/-- `rst_n` falls: every piece of state takes its reset value (R118). -/
def assertReset (s : State) : State := { resetBlock s with rstN := false }

/-- `rst_n` rises: at its release every piece of state has its reset value; a release of a released pin is none
(R118, log entry 7). -/
def releaseReset (s : State) : State := if s.rstN = true then s else { resetBlock s with rstN := true }

/-- One event served. "While `rst_n` is asserted no host access is served", and "Reset takes priority over every other
event" (R118): what comes then is lost (log entry 7). -/
def serve (e : Event) (s : State) : Result :=
  match e with
  | .rstLow => .next (assertReset s)
  | .rstHigh => .next (releaseReset s)
  | .read off n => if s.rstN = true then hostRead off n s else .next s
  | .write off n v => if s.rstN = true then hostWrite off n v s else .next s
  | .engine => if s.rstN = true then engineStep s else .next s

/-- The next event and the state with it taken from the list. Where no event is pending the engine moves: its step "is
enabled until taken" (R7, log entry 1). -/
def nextEvent (s : State) : Event × State :=
  match s.inputs with
  | [] => (.engine, s)
  | e :: rest => (e, { s with inputs := rest })

/-- `s` with a write of the word `w` to `CMD` as the very next event, to a block that takes it: `SEQ = IDLE` (R85) and
`rst_n` released (R118). Bits of `w` from `nbits` up are 0 (log entry 11). -/
def placeCommand (s : State) (nbits w : Nat) : State :=
  { s with
    seq := .idle
    rstN := true
    inputs := .write 0x04 Config.accessBytes (BitVec.ofNat 32 (w % 2 ^ nbits)) :: s.inputs }

end Sys2Proof.Machine
end

