-- ==== Sys2Proof/Machine/Step.lean ====
section
/-! DEFINITION. One step of the machine: the next event, served. -/

namespace Sys2Proof.Machine

/-- One atomic step of one agent (spec/00_scope.md R7, spec/20_memory.md R44). -/
def step (s : State) : Host.Outcome State Fault Refusal := serve (nextEvent s).1 (nextEvent s).2

/-- `s` with the command word placed where the next step takes its command from: the host's next write to `CMD`. -/
def State.withFetchWord (s : State) (nbits w : Nat) : State := placeCommand s nbits w

end Sys2Proof.Machine
end

