-- ==== Sys2Proof/Machine/EngineWork.lean ====
section
/-! DEFINITION. The engine's work: the sequence of engine operations of a command, which spec/70_reset_and_hazards.md R131
requires to be "a function of the opcode and of `R[WINDOW]` only". The engine here is built from units that each list
themselves when they run, in the fixed form of spec/40_counter_sha1_hmac.md R71 and spec/42_time_window_compare.md R82;
that its results are those of the commands, and that its list does not depend on data, are statements about it. What a
unit is, is the granularity R131 counts in (log entry 17). -/

namespace Sys2Proof.Machine

/-- The units R131 counts: the 64-by-31-bit division, one SHA-1 compression, one truncation, one decimal rendering, one
comparison. -/
inductive EngineOp where
  | divide | compression | truncation | rendering | comparison
  deriving DecidableEq, Repr

/-- A value together with the engine operations that made it, in order. -/
structure Work (α : Type) where
  ops : List EngineOp
  val : α

/-- A value that takes no engine operation. -/
def Work.free {α : Type} (v : α) : Work α := ⟨[], v⟩

/-- A value made by one engine operation. -/
def Work.unit {α : Type} (op : EngineOp) (v : α) : Work α := ⟨[op], v⟩

/-- First the work of `x`, then the work that its value asks for. -/
def Work.andThen {α β : Type} (x : Work α) (f : α → Work β) : Work β := ⟨x.ops ++ (f x.val).ops, (f x.val).val⟩

/-- `K0w[w]`, w = 0 .. 15: the words of the padded key (R69). -/
def Operands.keyWords (o : Operands) : List Word := (List.range 16).map fun w => word o.paddedKey w

/-- The second block of the inner hash: `c[63:32], c[31:0], 0x80000000, 0 (x12), 0x00000240` (R71). -/
def innerBlock (c : DWord) : List Word :=
  [hi32 c, lo32 c, 0x80000000#32] ++ List.replicate 12 0#32 ++ [0x00000240#32]

/-- The second block of the outer hash: `S2[0] .. S2[4], 0x80000000, 0 (x9), 0x000002A0` (R71). -/
def outerBlock (s2 : Chain) : List Word :=
  s2.words ++ [0x80000000#32] ++ List.replicate 9 0#32 ++ [0x000002A0#32]

/-- The compression unit. -/
def compressUnit (h : Chain) (block : List Word) : Work Chain := .unit .compression (compressWords h block)

/-- One HMAC: `S1`, `S2`, `O1` and `D` of R71, exactly four compressions. -/
def hmacWork (k0w : List Word) (c : DWord) : Work Chain :=
  (compressUnit sha1Init (k0w.map (· ^^^ 0x36363636#32))).andThen fun s1 =>
  (compressUnit s1 (innerBlock c)).andThen fun s2 =>
  (compressUnit sha1Init (k0w.map (· ^^^ 0x5C5C5C5C#32))).andThen fun o1 =>
  compressUnit o1 (outerBlock s2)

/-- The `HOTP` function: one HMAC, one truncation, one rendering (R77, R131). -/
def hotpWork (k0w : List Word) (c : DWord) : Work HotpResult :=
  (hmacWork k0w c).andThen fun d =>
  (Work.unit .truncation (dtTrunc d.bytes)).andThen fun t =>
  (Work.unit .rendering (dec6 (codeOf t))).andThen fun str =>
  .free { digest := d.bytes, offset := dtOffset d.bytes, truncated := t, code := codeOf t, str := str }

/-- One candidate of the window, in range or not: "run through the datapath with its wrapped 64-bit pattern, for uniform
work" (R82). -/
def candidateWork (k0w : List Word) (t : Token) (c : Candidate) : Work Bool :=
  (hotpWork k0w (BitVec.ofInt 64 c.cand)).andThen fun r => .unit .comparison (t.equals r.str && c.inRange)

/-- The walk over the candidates: none is skipped, whatever has matched so far (R82, R131). -/
def walkWork (k0w : List Word) (t : Token) : List Candidate → Bool → Work Bool
  | [], m => .free m
  | c :: cs, m => (candidateWork k0w t c).andThen fun eq => walkWork k0w t cs (m || eq)

/-- The engine's work for the effect of a command at its completion (R131). -/
def engineWork (i : Instr) (s : State) : Work State :=
  match i with
  | .hotp =>
    (hotpWork s.ops.keyWords s.ops.counter).andThen fun r => .free { s with res := r.registers }
  | .totp =>
    (Work.unit .divide (baseCounter s.ops.time s.ops.timeStep)).andThen fun base =>
    (hotpWork s.ops.keyWords base).andThen fun r =>
    .free { s with ops := s.ops.setCounter base, res := r.registers }
  | .verify =>
    (Work.unit .divide (baseCounter s.ops.time s.ops.timeStep)).andThen fun base =>
    (walkWork s.ops.keyWords s.ops.token (candidates base s.ops.window.toNat) false).andThen fun m =>
    .free { s with ops := s.ops.setCounter base, status := { s.status with matched := m } }
  | .clear => .free (clearEffect s)

end Sys2Proof.Machine
end

