-- ==== Sys2Proof/Safety.lean ====
section
/-! DEFINITION. What counts as a safe run, in the terms the statements use: legal operands (spec/10_state.md R20, R21,
R24), events the port can carry (spec/20_memory.md R39, R43), the invariants of every reachable state (R18, R27 to R33,
spec/70_reset_and_hazards.md R118), the launch premise (R122) and the end of a run (R132). -/

namespace Sys2Proof.Machine

/-- "legal values are 1 .. 2^31 - 1" (R20). -/
def Operands.StepLegal (o : Operands) : Prop := 1 ≤ o.timeStep.toNat ∧ o.timeStep.toNat ≤ 2147483647

/-- "Legal values at the issue of `VERIFY` are 0 .. `WINDOW_MAX` = 255" (R21). -/
def Operands.WindowLegal (o : Operands) : Prop := o.window.toNat ≤ 255

/-- "Legal values at the issue of `HOTP`, `TOTP` or `VERIFY` are 1 .. `KEY_MAX` = 64" (R24). -/
def Operands.KeyLegal (o : Operands) : Prop := 1 ≤ o.keyLen.toNat ∧ o.keyLen.toNat ≤ 64

/-- The operands a command checks are legal; a register it does not read is not looked at (R85). -/
def Operands.Legal (o : Operands) : Instr → Prop
  | .hotp => o.KeyLegal
  | .totp => o.StepLegal ∧ o.KeyLegal
  | .verify => o.StepLegal ∧ o.WindowLegal ∧ o.KeyLegal
  | .clear => True

/-- An access the port carries to this block: aligned, 32 bits wide, at an offset below 0x100 (R39, R43). -/
def Event.Carried : Event → Prop
  | .read off n => n = 4 ∧ off % 4 = 0 ∧ off < 256
  | .write off n _ => n = 4 ∧ off % 4 = 0 ∧ off < 256
  | .engine => True
  | .rstLow => True
  | .rstHigh => True

/-- Every pending host access is one the port carries. -/
def State.InputsCarried (s : State) : Prop := ∀ e ∈ s.inputs, e.Carried

/-- The invariants of every reachable state. -/
structure State.Inv (s : State) : Prop where
  /-- "`ERROR = 1` implies `ERRCODE != 0` and `BUSY = 0` and `DONE = 0`" (R18); the results read 0 after a refused
  command (R124), and `MATCH` was cleared (R108). -/
  errorSet : s.status.error = true → s.status.errCode ≠ 0#4 ∧ s.seq = .idle ∧ s.status.done = false
    ∧ s.status.matched = false ∧ s.res = Results.zero
  /-- "`ERROR = 0` implies `ERRCODE = 0`" (R18). -/
  errorClear : s.status.error = false → s.status.errCode = 0#4
  /-- Codes 4 .. 15 are "never produced" (R102). -/
  errCodeRange : s.status.errCode.toNat ≤ 3
  /-- "`BUSY = 1` implies `DONE = 0`, `ERROR = 0`, `MATCH = 0` and all result registers zero" (R18). -/
  busyClear : s.seq ≠ .idle → s.status.done = false ∧ s.status.error = false ∧ s.status.matched = false
    ∧ s.res = Results.zero
  /-- The command in flight passed its checks, `LASTOP` holds its opcode (R85), and neither can change under it (R86). -/
  inFlight : ∀ i, s.seq = .run i → s.ops.Legal i ∧ s.status.lastOp = opcodeOf i
  /-- "`MATCH = 1` implies `LASTOP = 0x03` and `BUSY = 0`" (R18). -/
  matchSet : s.status.matched = true → s.status.lastOp = 0x03#8 ∧ s.seq = .idle
  /-- The result registers hold one complete result or all zeros: there are no partial results (R28). -/
  resultsWhole : s.res = Results.zero ∨ s.res = (truncate s.res.digestBytes).registers
  /-- Only `HOTP` and `TOTP` leave results (R28): none is made visible by `VERIFY` (R90) or `CLEAR` (R91). -/
  resultsOwned : s.res ≠ Results.zero → s.status.lastOp = 0x01#8 ∨ s.status.lastOp = 0x02#8
  /-- `TOKEN1[15:0]` reads 0 (R27). -/
  token1Low : s.ops.token1.setWidth 16 = 0#16
  /-- Bits 31:4 of `OFFSET` are 0 (R30). -/
  offsetRange : s.res.offset.toNat ≤ 15
  /-- Bit 31 of `TRUNC` is always 0 (R31). -/
  truncRange : s.res.trunc.getLsbD 31 = false
  /-- `CODE_VAL` is in 0 .. 999 999 (R32). -/
  codeRange : s.res.codeVal.toNat ≤ 999999
  /-- `CODE_STR1[15:0]` is 0 (R33). -/
  codeStr1Low : s.res.codeStr1.setWidth 16 = 0#16
  /-- While `rst_n` is low every piece of state has its reset value (R118). -/
  resetHeld : s.rstN = false → s = resetBlock s

/-- "a hardware reset has occurred; `SEQ = IDLE`; the state is either the reset state or one reached from it" (R122): the
invariants stand for "reached", and `rst_n` is released: DESIGN CHOICE (log entry 20). -/
def State.Launched (s : State) : Prop := s.Inv ∧ s.rstN = true ∧ s.seq = .idle

/-- A transaction of the host: a read or a write of the register port (R7). -/
def Event.IsTransaction : Event → Prop
  | .read _ _ => True
  | .write _ _ _ => True
  | .engine => False
  | .rstLow => False
  | .rstHigh => False

/-- "the host has performed its last transaction" (R132): none is among the events still to come (log entry 19). -/
def State.HostDone (s : State) : Prop := ∀ e ∈ s.inputs, ¬ e.IsTransaction

/-- "the host has performed its last transaction and `SEQ = IDLE`" (R132), whatever else is still to come. -/
def State.Final (s : State) : Prop := s.HostDone ∧ s.seq = .idle

/-- What is observable: the values host reads returned and the level of `irq` (R6). -/
def observe (s : State) : List Word × Bool := (s.returned, irq s)

/-- Two states that differ in nothing but the stored key words (R25). -/
def SameButKey (s t : State) : Prop := t = { s with ops := { s.ops with key := t.ops.key } }

end Sys2Proof.Machine
end

