-- ==== Sys2Proof/Certificates/Slice0/Obligations.lean ====
section
/-! DEFINITION. The statements for the provers. Each docstring names the rule or the section of the spec it formalises. -/

open Sys2Proof Sys2Proof.Machine

/-! ## The command word -/

/-- The words of the opcode map, written out from its fields `ZERO[31:8] || OPCODE[7:0]`, decode to their commands, and
some words beside them are refused by name (30_encoding.md section 1, R49 to R51). -/
def Obligations.DecodeReadsTheOpcodeMap : Prop :=
  decode 0b000000000000000000000000_00000001#32 = .ok .hotp
    ∧ decode 0b000000000000000000000000_00000010#32 = .ok .totp
    ∧ decode 0b000000000000000000000000_00000011#32 = .ok .verify
    ∧ decode 0b000000000000000000000000_00000100#32 = .ok .clear
    ∧ decode 0x00000000#32 = .error (.reservedOpcode 0x00#8)
    ∧ decode 0x00000005#32 = .error (.reservedOpcode 0x05#8)
    ∧ decode 0x00000101#32 = .error (.zeroFieldSet 0x000001#24)

/-- Decoding the word of a well-formed command gives that command back (30_encoding.md section 1). -/
def Obligations.DecodeOfEncodeIsTheCommand : Prop :=
  ∀ i : Instr, i.wellFormed = true → decode (encode i) = .ok i

/-- A word decodes to a command exactly when it is covered by that command's row of the opcode map, all 32 bits of it, and
no word is covered by two rows (R50). -/
def Obligations.DecodeAgreesWithTheOpcodeMap : Prop :=
  (∀ (w : Word) (i : Instr), decode w = .ok i ↔ ∃ r ∈ opcodeTable, r.instr = i ∧ r.covers w = true)
    ∧ (∀ (w : Word) (i : Instr), decode w = .ok i → w = encode i)
    ∧ opcodeTable.Pairwise (fun r q => ∀ w : Word, ¬(r.covers w = true ∧ q.covers w = true))

/-- Every word but the four of the opcode map, written to `CMD` while `SEQ = IDLE`, raises `IllegalCommand`: no command
starts, flags and results are cleared, `LASTOP` records the low byte, and nothing else changes (R51, R105). -/
def Obligations.IllegalWordRaisesIllegalCommand : Prop :=
  ∀ (s : State) (w : Word), s.seq = .idle →
    w ≠ 0x00000001#32 → w ≠ 0x00000002#32 → w ≠ 0x00000003#32 → w ≠ 0x00000004#32 →
    hostWrite 0x04 4 w s = .next { s with
      status := { s.status with
        done := false, error := true, errCode := 3#4, matched := false, lastOp := w.setWidth 8 }
      res := Results.zero }

/-- The offset map is R14's: every register is at its offset, and exactly 0x38, 0x3C and 0xA8 .. 0xFC are reserved
(10_state.md sections 1 and 6). -/
def Obligations.OffsetMapIsTheRegisterMap : Prop :=
  (∀ r : OperandReg, regAt r.byteOffset = .operand r) ∧ (∀ r : ResultReg, regAt r.byteOffset = .result r)
    ∧ regAt 0x00 = .id ∧ regAt 0x04 = .cmd ∧ regAt 0x08 = .status ∧ regAt 0x0C = .ctrl
    ∧ ∀ off : Nat, off % 4 = 0 → off < 256 → (regAt off = .reserved ↔ off = 0x38 ∨ off = 0x3C ∨ 0xA8 ≤ off)

/-! ## One step -/

/-- When the word of the pending `CMD` write decodes to a well-formed command and the block is idle, the step is that
command's meaning; the step around it only takes the event from the list (43_commands.md section 1). The order in which
events come is the model's list of them (log entry 1). -/
def Obligations.StepRunsTheDecodedCommand : Prop :=
  ∀ (s : State) (w : Word) (i : Instr) (rest : List Event),
    s.rstN = true → s.seq = .idle → s.inputs = .write 0x04 4 w :: rest →
    decode w = .ok i → i.wellFormed = true →
    step s = exec i { s with inputs := rest }

/-- The engine's step is the meaning of the command in flight: when it is the next event, and when no event is pending
(43_commands.md section 1; that the engine moves when no event is pending is the model's choice, log entry 1). -/
def Obligations.EngineStepRunsTheCommandInFlight : Prop :=
  ∀ (s : State) (i : Instr), s.rstN = true → s.seq = .run i →
    (s.inputs = [] → step s = exec i s)
      ∧ ∀ rest : List Event, s.inputs = .engine :: rest → step s = exec i { s with inputs := rest }

/-- A pending host access is served next, and taken from the list (20_memory.md section 4; log entry 1). -/
def Obligations.PendingAccessIsServedNext : Prop :=
  ∀ (s : State) (rest : List Event), s.rstN = true →
    (∀ off n : Nat, s.inputs = .read off n :: rest → step s = hostRead off n { s with inputs := rest })
      ∧ ∀ (off n : Nat) (v : Word), s.inputs = .write off n v :: rest →
          step s = hostWrite off n v { s with inputs := rest }

/-- A command word placed as the next fetch is run by the very next step (the model's reading of how a program comes to
run, log entry 11; 43_commands.md section 1). -/
def Obligations.PlacedWordIsRunNext : Prop :=
  ∀ (s : State) (i : Instr),
    step (s.withFetchWord 32 (encode i).toNat) = exec i { s with seq := .idle, rstN := true }

/-! ## Acceptance and its errors -/

/-- Acceptance, line by line: the clearing, `LASTOP`, the checks in order, and `SEQ <- RUN(op)`; a `CMD` write that finds
`SEQ != IDLE` does none of it (R85). -/
def Obligations.CommandWriteIsAcceptance : Prop :=
  ∀ (s : State) (w : Word),
    (s.seq = .idle →
      let cleared : State := { s with
        status := { s.status with done := false, error := false, errCode := 0#4, matched := false, lastOp := w.setWidth 8 }
        res := Results.zero }
      let raised : BitVec 4 → State := fun code =>
        { cleared with status := { cleared.status with error := true, errCode := code } }
      hostWrite 0x04 4 w s =
        if w.toNat / 256 ≠ 0 ∨ w.toNat % 256 = 0 ∨ 4 < w.toNat % 256 then .next (raised 3#4)
        else if (w = 0x02#32 ∨ w = 0x03#32) ∧ (s.ops.timeStep = 0#32 ∨ s.ops.timeStep.getLsbD 31 = true)
          then .next (raised 1#4)
        else if w = 0x03#32 ∧ 255 < s.ops.window.toNat then .next (raised 1#4)
        else if (w = 0x01#32 ∨ w = 0x02#32 ∨ w = 0x03#32) ∧ (s.ops.keyLen = 0#32 ∨ 64 < s.ops.keyLen.toNat)
          then .next (raised 2#4)
        else .next { cleared with
          seq := .run (if w = 0x01#32 then .hotp else if w = 0x02#32 then .totp else if w = 0x03#32 then .verify
            else .clear) })
    ∧ (s.seq ≠ .idle → hostWrite 0x04 4 w s = .next { s with status := { s.status with wrIgn := true } })

/-- Exactly one error is reported, the first in the order `IllegalCommand`, `InvalidArgument` for `TIMESTEP`,
`InvalidArgument` for `WINDOW`, `InvalidSecret`; a command with legal operands is accepted without error; while
`SEQ != IDLE` a `CMD` write is no error, whatever the word (60_exceptions.md section 2, R107). -/
def Obligations.ErrorsAreReportedByPriority : Prop :=
  ∀ (s : State) (w : Word), ∃ t : State, hostWrite 0x04 4 w s = .next t
    ∧ (s.seq = .idle → t.status.errCode =
        if w ≠ encode .hotp ∧ w ≠ encode .totp ∧ w ≠ encode .verify ∧ w ≠ encode .clear then 3#4
        else if (w = encode .totp ∨ w = encode .verify) ∧ ¬ (0 < s.ops.timeStep.toInt) then 1#4
        else if w = encode .verify ∧ ¬ (0 ≤ s.ops.window.toInt ∧ s.ops.window.toInt ≤ 255) then 1#4
        else if w ≠ encode .clear ∧ ¬ (1 ≤ s.ops.keyLen.toNat ∧ s.ops.keyLen.toNat ≤ 64) then 2#4
        else 0#4)
    ∧ (s.seq = .idle → (t.status.error = true ↔ t.status.errCode ≠ 0#4))
    ∧ (s.seq ≠ .idle → t = { s with status := { s.status with wrIgn := true } })

/-- Error entry: at the end of a refused `CMD` write `ERROR` is 1 with its code, `SEQ` stays `IDLE`, the flags and the ten
results were cleared, `LASTOP` holds the opcode byte, every operand register, `CTRL` and `WRIGN` are untouched, and `irq`
is 1 if `IE_ERROR` is (R108). -/
def Obligations.ErrorEntryTouchesNothingElse : Prop :=
  ∀ (s t : State) (w : Word), s.seq = .idle → hostWrite 0x04 4 w s = .next t → t.status.error = true →
    (t.status.errCode = 1#4 ∨ t.status.errCode = 2#4 ∨ t.status.errCode = 3#4)
      ∧ t.seq = .idle ∧ t.status.done = false ∧ t.status.matched = false ∧ t.res = Results.zero
      ∧ t.status.lastOp = w.setWidth 8 ∧ t.status.wrIgn = s.status.wrIgn ∧ t.ops = s.ops ∧ t.ctrl = s.ctrl
      ∧ t.rstN = s.rstN ∧ t.inputs = s.inputs ∧ t.returned = s.returned
      ∧ (s.ctrl.ieError = true → irq t = true)

/-- Return and nesting: a 1 in `STATUS` bit 2 clears `ERROR` and `ERRCODE`; a `CMD` write taken in `IDLE` does the same
whatever error stood there before; a reset clears them; and re-issuing a refused command raises the same error (R109). -/
def Obligations.ErrorReturnAndReissue : Prop :=
  ∀ s : State,
    (∀ v : Word, v.getLsbD 2 = true → ∃ t : State, hostWrite 0x08 4 v s = .next t
        ∧ t.status.error = false ∧ t.status.errCode = 0#4 ∧ t.seq = s.seq ∧ t.ops = s.ops ∧ t.res = s.res)
      ∧ (∀ (w : Word) (e : Bool) (c : BitVec 4), s.seq = .idle →
          hostWrite 0x04 4 w { s with status := { s.status with error := e, errCode := c } } = hostWrite 0x04 4 w s)
      ∧ (∀ (w : Word) (t : State), s.seq = .idle → hostWrite 0x04 4 w s = .next t → t.status.error = true →
          hostWrite 0x04 4 w t = .next t)
      ∧ ∀ (v : Word), v.getLsbD 31 = true → ∃ t : State, hostWrite 0x0C 4 v s = .next t
          ∧ t.status.error = false ∧ t.status.errCode = 0#4

/-! ## The commands -/

/-- `HOTP`: accepted with a legal key length, refused with `InvalidSecret` otherwise; completion writes the ten result
registers from the padded key and the 64-bit counter, and `DONE`, and leaves everything else (R88). -/
def Obligations.HotpFollowsItsRule : Prop :=
  encode .hotp = 0x00000001#32 ∧ ∀ s : State,
    (s.seq = .idle → s.ops.KeyLegal → exec .hotp s = .next { s with
      seq := .run .hotp
      status := { s.status with done := false, error := false, errCode := 0#4, matched := false, lastOp := 0x01#8 }
      res := Results.zero })
    ∧ (s.seq = .idle → ¬ s.ops.KeyLegal → exec .hotp s = .next { s with
      status := { s.status with done := false, error := true, errCode := 2#4, matched := false, lastOp := 0x01#8 }
      res := Results.zero })
    ∧ (s.seq = .run .hotp → s.ops.KeyLegal →
      let digest := hmacSha1 s.ops.paddedKey (be64 (join64 s.ops.counterHi s.ops.counterLo))
      let str := dec6 ((dtTrunc digest).toNat % 1000000)
      exec .hotp s = .next { s with
        seq := .idle
        status := { s.status with done := true }
        res :=
          { digest := #v[word digest 0, word digest 1, word digest 2, word digest 3, word digest 4]
            offset := BitVec.ofNat 32 (dtOffset digest)
            trunc := dtTrunc digest
            codeVal := BitVec.ofNat 32 ((dtTrunc digest).toNat % 1000000)
            codeStr0 := joinBytes (byteAt str 0) (byteAt str 1) (byteAt str 2) (byteAt str 3)
            codeStr1 := joinBytes (byteAt str 4) (byteAt str 5) 0#8 0#8 } })

/-- `TOTP`: `TIMESTEP` is checked before `KEYLEN`; completion stores `floor(TIME / TIMESTEP)` in `COUNTER`, then does what
`HOTP` does with it, and leaves everything else (R89). -/
def Obligations.TotpFollowsItsRule : Prop :=
  encode .totp = 0x00000002#32 ∧ ∀ s : State,
    (s.seq = .idle → s.ops.StepLegal → s.ops.KeyLegal → exec .totp s = .next { s with
      seq := .run .totp
      status := { s.status with done := false, error := false, errCode := 0#4, matched := false, lastOp := 0x02#8 }
      res := Results.zero })
    ∧ (s.seq = .idle → ¬ s.ops.StepLegal → exec .totp s = .next { s with
      status := { s.status with done := false, error := true, errCode := 1#4, matched := false, lastOp := 0x02#8 }
      res := Results.zero })
    ∧ (s.seq = .idle → s.ops.StepLegal → ¬ s.ops.KeyLegal → exec .totp s = .next { s with
      status := { s.status with done := false, error := true, errCode := 2#4, matched := false, lastOp := 0x02#8 }
      res := Results.zero })
    ∧ (s.seq = .run .totp → s.ops.StepLegal → s.ops.KeyLegal →
      let base : DWord := BitVec.ofNat 64 ((join64 s.ops.timeHi s.ops.timeLo).toNat / s.ops.timeStep.toNat)
      let digest := hmacSha1 s.ops.paddedKey (be64 base)
      let str := dec6 ((dtTrunc digest).toNat % 1000000)
      exec .totp s = .next { s with
        seq := .idle
        status := { s.status with done := true }
        ops := { s.ops with counterHi := base.extractLsb' 32 32, counterLo := base.extractLsb' 0 32 }
        res :=
          { digest := #v[word digest 0, word digest 1, word digest 2, word digest 3, word digest 4]
            offset := BitVec.ofNat 32 (dtOffset digest)
            trunc := dtTrunc digest
            codeVal := BitVec.ofNat 32 ((dtTrunc digest).toNat % 1000000)
            codeStr0 := joinBytes (byteAt str 0) (byteAt str 1) (byteAt str 2) (byteAt str 3)
            codeStr1 := joinBytes (byteAt str 4) (byteAt str 5) 0#8 0#8 } })

/-- `VERIFY`: `TIMESTEP`, then `WINDOW`, then `KEYLEN` are checked; completion stores the base counter in `COUNTER` and the
verdict in `MATCH`, and leaves everything else, the result registers among it (R90). -/
def Obligations.VerifyFollowsItsRule : Prop :=
  encode .verify = 0x00000003#32 ∧ ∀ s : State,
    (s.seq = .idle → s.ops.StepLegal → s.ops.WindowLegal → s.ops.KeyLegal → exec .verify s = .next { s with
      seq := .run .verify
      status := { s.status with done := false, error := false, errCode := 0#4, matched := false, lastOp := 0x03#8 }
      res := Results.zero })
    ∧ (s.seq = .idle → ¬ (s.ops.StepLegal ∧ s.ops.WindowLegal) → exec .verify s = .next { s with
      status := { s.status with done := false, error := true, errCode := 1#4, matched := false, lastOp := 0x03#8 }
      res := Results.zero })
    ∧ (s.seq = .idle → s.ops.StepLegal → s.ops.WindowLegal → ¬ s.ops.KeyLegal → exec .verify s = .next { s with
      status := { s.status with done := false, error := true, errCode := 2#4, matched := false, lastOp := 0x03#8 }
      res := Results.zero })
    ∧ (s.seq = .run .verify → s.ops.StepLegal → s.ops.WindowLegal → s.ops.KeyLegal →
      let base : DWord := BitVec.ofNat 64 ((join64 s.ops.timeHi s.ops.timeLo).toNat / s.ops.timeStep.toNat)
      exec .verify s = .next { s with
        seq := .idle
        status := { s.status with
          done := true
          matched := windowMatch s.ops.paddedKey base s.ops.window.toNat ⟨s.ops.tokLen, s.ops.token0, s.ops.token1⟩ }
        ops := { s.ops with counterHi := base.extractLsb' 32 32, counterLo := base.extractLsb' 0 32 } })

/-- `CLEAR`: accepted in every idle state; completion zeroes the key, its length, the token, its length, the time and the
counter, and keeps `TIMESTEP`, `WINDOW`, `CTRL`, `WRIGN` and `LASTOP` (R91). -/
def Obligations.ClearFollowsItsRule : Prop :=
  encode .clear = 0x00000004#32 ∧ ∀ s : State,
    (s.seq = .idle → exec .clear s = .next { s with
      seq := .run .clear
      status := { s.status with done := false, error := false, errCode := 0#4, matched := false, lastOp := 0x04#8 }
      res := Results.zero })
    ∧ (s.seq = .run .clear → exec .clear s = .next { s with
      seq := .idle
      status := { s.status with done := true }
      ops :=
        { timeStep := s.ops.timeStep, window := s.ops.window, timeHi := 0#32, timeLo := 0#32, counterHi := 0#32,
          counterLo := 0#32, keyLen := 0#32, tokLen := 0#32, token0 := 0#32, token1 := 0#32,
          key := Vector.replicate 16 0#32 } })

/-- What a completion leaves as it was, seen through the port: `HOTP` every register but `STATUS` and the results, `TOTP`
also the counter, `VERIFY` every register but `STATUS` and the counter, `CLEAR` every register but `STATUS` and those it
zeroes; the key buffer, which no read shows, is changed by `CLEAR` only (43_commands.md sections 2 to 5). -/
def Obligations.CompletionFrame : Prop :=
  ∀ (s t : State) (i : Instr), s.seq = .run i → exec i s = .next t →
    (∀ r : Reg, r ≠ .status →
      (∀ q : ResultReg, r = .result q → i = .verify ∨ i = .clear) →
      (r = .operand .counterHi ∨ r = .operand .counterLo → i = .hotp) →
      (i = .clear → ∀ q : OperandReg, r = .operand q → q = .timeStep ∨ q = .window) →
      readReg t r = readReg s r)
    ∧ (i ≠ .clear → t.ops.key = s.ops.key)
    ∧ t.status.wrIgn = s.status.wrIgn ∧ t.status.lastOp = s.status.lastOp ∧ t.status.error = s.status.error
    ∧ t.status.errCode = s.status.errCode ∧ (i ≠ .verify → t.status.matched = s.status.matched)
    ∧ t.ctrl = s.ctrl ∧ t.rstN = s.rstN ∧ t.inputs = s.inputs ∧ t.returned = s.returned

/-- What the commands have in common: no command writes `TIMESTEP`, `WINDOW`, `CTRL` or `WRIGN`, the engine writes no
operand register but `COUNTER` and those `CLEAR` zeroes, acceptance writes none; and no command reads a result register,
a status flag, or (but for `HOTP`) `COUNTER` (R92). -/
def Obligations.CommandsShareTheirLimits : Prop :=
  (∀ (s t : State) (i : Instr), s.seq = .idle ∨ s.seq = .run i → exec i s = .next t →
    t.ops.timeStep = s.ops.timeStep ∧ t.ops.window = s.ops.window ∧ t.ctrl = s.ctrl ∧ t.status.wrIgn = s.status.wrIgn
      ∧ (s.seq = .idle → t.ops = s.ops)
      ∧ (i ≠ .clear → t.ops = { s.ops with counterHi := t.ops.counterHi, counterLo := t.ops.counterLo })
      ∧ (i = .hotp → t.ops = s.ops))
  ∧ ∀ (s t : State) (i : Instr), s.seq = .run i → t.seq = .run i →
      t.ops = { s.ops with counterHi := t.ops.counterHi, counterLo := t.ops.counterLo } →
      (i = .hotp → t.ops = s.ops) →
      ∃ s' t' : State, exec i s = .next s' ∧ exec i t = .next t' ∧ s'.ops = t'.ops
        ∧ (i = .hotp ∨ i = .totp → s'.res = t'.res) ∧ (i = .verify → s'.status.matched = t'.status.matched)

/-- A `TOTP` followed by `HOTP` with no writes between repeats the same code, because `TOTP` left the derived counter in
`COUNTER` (43_commands.md section 3). -/
def Obligations.TotpThenHotpRepeatsTheCode : Prop :=
  ∀ s t : State, s.seq = .run .totp → s.ops.Legal .totp → exec .totp s = .next t →
    ∃ u v : State, exec .hotp t = .next u ∧ exec .hotp u = .next v ∧ v.res = t.res ∧ v.ops = t.ops
      ∧ v.seq = .idle ∧ v.status.done = true

/-- `VERIFY` never fails for a malformed token: with a length other than 6, or with a byte among the six that is no decimal
digit, it completes with `MATCH` = 0, `DONE` = 1 and no error (43_commands.md section 4; 60_exceptions.md section 1). -/
def Obligations.MalformedTokenFailsToMatch : Prop :=
  ∀ s : State, s.seq = .run .verify → s.ops.Legal .verify →
    (s.ops.tokLen ≠ 6#32
      ∨ ∃ b ∈ be32 s.ops.token0 ++ (be32 s.ops.token1).take 2, ¬ (0x30 ≤ b.toNat ∧ b.toNat ≤ 0x39)) →
    ∃ t : State, exec .verify s = .next t ∧ t.seq = .idle ∧ t.status.matched = false ∧ t.status.done = true
      ∧ t.status.error = s.status.error ∧ t.status.errCode = s.status.errCode ∧ t.res = s.res

/-- The verdict of `VERIFY` is the source's: `MATCH` is 1 exactly when the token has six characters and they are the code
of some counter, a 64-bit unsigned integer, within `WINDOW` of `floor(TIME / TIMESTEP)` (43_commands.md section 4;
42_time_window_compare.md sections 2 and 3). -/
def Obligations.VerifyAcceptsExactlyTheWindow : Prop :=
  ∀ s : State, s.seq = .run .verify → s.ops.Legal .verify →
    let base : Nat := (join64 s.ops.timeHi s.ops.timeLo).toNat / s.ops.timeStep.toNat
    ∃ t : State, exec .verify s = .next t
      ∧ (t.status.matched = true ↔
          s.ops.tokLen = 6#32 ∧ ∃ c : Nat, c < 2 ^ 64 ∧ base ≤ c + s.ops.window.toNat ∧ c ≤ base + s.ops.window.toNat
            ∧ be32 s.ops.token0 ++ (be32 s.ops.token1).take 2 = (hotp s.ops.paddedKey (BitVec.ofNat 64 c)).str)

/-! ## The pure functions -/

/-- The counter encoder: eight bytes, the most significant first; total and injective; the two halves' `be32` in order
(R61). -/
def Obligations.CounterEncoderIsBigEndian : Prop :=
  ∀ c : DWord, (be64 c).length = 8
    ∧ (∀ i : Nat, i < 8 → (byteAt (be64 c) i).toNat = c.toNat / 2 ^ (8 * (7 - i)) % 256)
    ∧ (∀ d : DWord, be64 c = be64 d → c = d)
    ∧ ∀ hi lo : Word, be64 (join64 hi lo) = be32 hi ++ be32 lo

/-- Padding: the message, 0x80, the least number of zero bytes that brings the length to 56 modulo 64, and the length in
bits as eight big-endian bytes; a whole number of 64-byte blocks (R63). -/
def Obligations.PaddingIsLeastAndAligned : Prop :=
  ∀ m : List Byte, ∃ z : Nat, (m.length + 1 + z) % 64 = 56 ∧ (∀ y : Nat, y < z → (m.length + 1 + y) % 64 ≠ 56)
    ∧ pad m = m ++ [0x80#8] ++ List.replicate z 0x00#8 ++ be64 (BitVec.ofNat 64 (8 * m.length))
    ∧ (pad m).length % 64 = 0 ∧ (pad m).length / 64 = (m.length + 1 + z + 8) / 64

/-- The message schedule: 80 words, the block's 16 first, then the recurrence with its rotation by 1 (R65). -/
def Obligations.ScheduleFollowsItsRecurrence : Prop :=
  ∀ block : List Word, block.length = 16 →
    (schedule block).length = 80
      ∧ (∀ t : Nat, t < 16 → (schedule block).getD t 0#32 = block.getD t 0#32)
      ∧ ∀ t : Nat, 16 ≤ t → t < 80 →
          (schedule block).getD t 0#32 =
            rotl32 ((schedule block).getD (t - 3) 0#32 ^^^ (schedule block).getD (t - 8) 0#32
              ^^^ (schedule block).getD (t - 14) 0#32 ^^^ (schedule block).getD (t - 16) 0#32) 1

/-- The digests of the two messages whose SHA-1 the spec prints, "abc" and the empty message
(40_counter_sha1_hmac.md section 2). -/
def Obligations.Sha1OfTheKnownMessages : Prop :=
  sha1Chain [0x61#8, 0x62#8, 0x63#8] = ⟨0xA9993E36#32, 0x4706816A#32, 0xBA3E2571#32, 0x7850C26C#32, 0x9CD0D89D#32⟩
    ∧ sha1Chain [] = ⟨0xDA39A3EE#32, 0x5E6B4B0D#32, 0x3255BFEF#32, 0x95601890#32, 0xAFD80709#32⟩

/-- Every HMAC of the block is exactly the four compressions of R71 over blocks of fixed layout, for every padded key of 64
bytes and every counter (R71). -/
def Obligations.HmacIsFourFixedCompressions : Prop :=
  ∀ (k0 : List Byte) (c : DWord), k0.length = 64 →
    let k0w : List Word := (List.range 16).map (word k0)
    let s1 := compressWords sha1Init (k0w.map (· ^^^ 0x36363636#32))
    let s2 := compressWords s1
      [c.extractLsb' 32 32, c.extractLsb' 0 32, 0x80000000#32, 0, 0, 0, 0, 0, 0, 0, 0, 0, 0, 0, 0, 0x00000240#32]
    let o1 := compressWords sha1Init (k0w.map (· ^^^ 0x5C5C5C5C#32))
    let d := compressWords o1
      [s2.a, s2.b, s2.c, s2.d, s2.e, 0x80000000#32, 0, 0, 0, 0, 0, 0, 0, 0, 0, 0x000002A0#32]
    hmacSha1 k0 (be64 c) = be32 d.a ++ be32 d.b ++ be32 d.c ++ be32 d.d ++ be32 d.e

/-- The padded key: 64 bytes, the key buffer's below `KEYLEN` and zero from there on (R69). -/
def Obligations.PaddedKeyMasksTheTail : Prop :=
  ∀ o : Operands, o.KeyLegal →
    o.paddedKey.length = 64
      ∧ (∀ i : Nat, i < o.keyLen.toNat → byteAt o.paddedKey i = byteAt (be32 (o.keyWord (i / 4))) (i % 4))
      ∧ ∀ i : Nat, o.keyLen.toNat ≤ i → i < 64 → byteAt o.paddedKey i = 0x00#8

/-- A secret laid out in the key buffer as R55 says, with any bytes after it, gives the padded key that is the secret
followed by zeros (30_encoding.md section 2; 40_counter_sha1_hmac.md section 3). -/
def Obligations.SecretLayoutGivesThePaddedKey : Prop :=
  ∀ (o : Operands) (k : List Byte), 1 ≤ k.length → k.length ≤ 64 → o.keyLen.toNat = k.length →
    (∀ i : Nat, i < k.length → byteAt (be32 (o.keyWord (i / 4))) (i % 4) = byteAt k i) →
    o.paddedKey = k ++ List.replicate (64 - k.length) 0x00#8

/-- Key-buffer bytes at positions >= `KEYLEN` influence no command: two states that agree but for those bytes get the same
results, the same counter and the same verdict (43_commands.md section 2; 40_counter_sha1_hmac.md section 3). -/
def Obligations.CommandsIgnoreTheKeyTail : Prop :=
  ∀ (s : State) (i : Instr) (key' : Vector Word 16), s.seq = .run i → s.ops.Legal i →
    (∀ j : Nat, j < s.ops.keyLen.toNat → s.ops.keyByte j = Operands.keyByte { s.ops with key := key' } j) →
    ∃ t t' : State, exec i s = .next t ∧ exec i { s with ops := { s.ops with key := key' } } = .next t'
      ∧ t'.res = t.res ∧ t'.status = t.status ∧ t'.seq = t.seq
      ∧ t'.ops = { t.ops with key := if i = .clear then Vector.replicate 16 0#32 else key' }

/-- The source's known answer: the secret "12345678901234567890", time 59, step 30 give counter 1 and the code 287082
(95_test_vectors.md section 1). -/
def Obligations.KnownAnswerOfTheSource : Prop :=
  let k0 : List Byte :=
    [0x31#8, 0x32#8, 0x33#8, 0x34#8, 0x35#8, 0x36#8, 0x37#8, 0x38#8, 0x39#8, 0x30#8, 0x31#8, 0x32#8, 0x33#8, 0x34#8,
     0x35#8, 0x36#8, 0x37#8, 0x38#8, 0x39#8, 0x30#8] ++ List.replicate 44 0x00#8
  baseCounter 59#64 30#32 = 1#64 ∧ (hotp k0 1#64).offset = 11 ∧ (hotp k0 1#64).truncated = 0x41397EEA#32
    ∧ (hotp k0 1#64).str = [0x32#8, 0x38#8, 0x37#8, 0x30#8, 0x38#8, 0x32#8]

/-- Dynamic truncation: the offset is the low nibble of the last byte; the four bytes read lie inside the digest; the
result is their big-endian value without its top bit (R73, R74). -/
def Obligations.TruncationIsAMaskedBigEndianRead : Prop :=
  ∀ d : List Byte, d.length = 20 →
    let o := (byteAt d 19).toNat % 16
    dtOffset d = o ∧ o ≤ 15 ∧ o + 3 ≤ 18
      ∧ (dtTrunc d).toNat =
          ((((byteAt d o).toNat * 256 + (byteAt d (o + 1)).toNat) * 256 + (byteAt d (o + 2)).toNat) * 256
            + (byteAt d (o + 3)).toNat) % 2 ^ 31

/-- A code is rendered as exactly six ASCII digits whose decimal value it is, leading zeros kept, laid into the two string
registers with bits 15:0 of the second 0; the rendering is injective (R76). -/
def Obligations.CodeStringIsSixDigits : Prop :=
  (∀ code : Nat, code < 1000000 → (dec6 code).length = 6
      ∧ (∀ b ∈ dec6 code, 0x30 ≤ b.toNat ∧ b.toNat ≤ 0x39)
      ∧ (dec6 code).foldl (fun n b => n * 10 + (b.toNat - 0x30)) 0 = code
      ∧ be32 (str0 (dec6 code)) ++ (be32 (str1 (dec6 code))).take 2 = dec6 code
      ∧ (str1 (dec6 code)).setWidth 16 = 0#16)
    ∧ ∀ a b : Nat, a < 1000000 → b < 1000000 → dec6 a = dec6 b → a = b

/-- The time-to-counter derivation is the floor of the quotient, for every legal step: no overflow and no wrap (R79). -/
def Obligations.BaseCounterIsTheFloor : Prop :=
  ∀ (time : DWord) (timeStep : Word), 1 ≤ timeStep.toNat → timeStep.toNat ≤ 2147483647 →
    (baseCounter time timeStep).toNat * timeStep.toNat ≤ time.toNat
      ∧ time.toNat < ((baseCounter time timeStep).toNat + 1) * timeStep.toNat
      ∧ (baseCounter time timeStep).toNat ≤ time.toNat

/-- The candidates: 2W + 1 of them, ascending from `base - W`, in unbounded integers; a candidate is in range exactly when
it is a 64-bit unsigned number, and one out of range occurs only near an end of the range (R80). -/
def Obligations.CandidatesAreNotWrapped : Prop :=
  ∀ (base : DWord) (w : Nat), w ≤ 255 →
    (candidates base w).length = 2 * w + 1
      ∧ (∀ j : Nat, j ≤ 2 * w → ∃ c : Candidate, (candidates base w)[j]? = some c
          ∧ c.cand = (base.toNat : Int) + (j : Int) - (w : Int)
          ∧ (c.inRange = true ↔ 0 ≤ c.cand ∧ c.cand < 2 ^ 64))
      ∧ ((∃ c ∈ candidates base w, c.inRange = false) ↔ base.toNat < w ∨ 2 ^ 64 - 1 - w < base.toNat)

/-- The comparator is string equality, length and padding included: 1 exactly when the token has length 6 and its six bytes
are the six characters of the candidate's code (R81). -/
def Obligations.ComparatorIsStringEquality : Prop :=
  ∀ (tokLen tok0 tok1 : Word) (str : List Byte), str.length = 6 →
    (cteq6 tokLen tok0 tok1 (str0 str) (str1 str) = true ↔
      tokLen = 6#32 ∧ be32 tok0 ++ (be32 tok1).take 2 = str)

/-- The listed properties of the window: (a) round trip at every width, (b) window correctness, (c) the negative case,
(d) monotone in the width, (e) independent of the order of evaluation (R83). -/
def Obligations.WindowProperties : Prop :=
  ∀ (k0 : List Byte) (base : DWord) (w : Nat) (t : Token),
    (t.equals (hotp k0 base).str = true → windowMatch k0 base w t = true)
      ∧ (∀ c : DWord, base.toNat ≤ c.toNat + w → c.toNat ≤ base.toNat + w → t.equals (hotp k0 c).str = true →
          windowMatch k0 base w t = true)
      ∧ ((∀ c : DWord, base.toNat ≤ c.toNat + w → c.toNat ≤ base.toNat + w → t.equals (hotp k0 c).str = false) →
          windowMatch k0 base w t = false)
      ∧ (∀ v : Nat, w ≤ v → windowMatch k0 base w t = true → windowMatch k0 base v t = true)
      ∧ ∀ cs : List Candidate, cs.Perm (candidates base w) →
          cs.foldl (fun m c => m || candidateMatches k0 t c) false = windowMatch k0 base w t

/-! ## The port -/

/-- A read returns the value of R94's table and changes no state; it is allowed in every state (R94). -/
def Obligations.ReadsReturnTheTable : Prop :=
  ∀ (s : State) (off : Nat), off % 4 = 0 → off < 256 →
    ∃ v : Word, hostRead off 4 s = .next { s with returned := v :: s.returned }
      ∧ (off = 0x00 → v = 0x32464131#32) ∧ (off = 0x04 → v = 0x00000000#32)
      ∧ (off = 0x08 → v.getLsbD 0 = decide (s.seq ≠ .idle) ∧ v.getLsbD 1 = s.status.done
          ∧ v.getLsbD 2 = s.status.error ∧ v.getLsbD 3 = s.status.matched ∧ v.getLsbD 4 = s.status.wrIgn
          ∧ v.extractLsb' 5 3 = 0#3 ∧ v.extractLsb' 8 4 = s.status.errCode ∧ v.extractLsb' 12 4 = 0#4
          ∧ v.extractLsb' 16 8 = s.status.lastOp ∧ v.extractLsb' 24 8 = 0#8)
      ∧ (off = 0x0C → v.getLsbD 0 = s.ctrl.ieDone ∧ v.getLsbD 1 = s.ctrl.ieError ∧ v.extractLsb' 2 30 = 0#30)
      ∧ (off = 0x10 → v = s.ops.timeStep) ∧ (off = 0x14 → v = s.ops.window) ∧ (off = 0x18 → v = s.ops.timeHi)
      ∧ (off = 0x1C → v = s.ops.timeLo) ∧ (off = 0x20 → v = s.ops.counterHi) ∧ (off = 0x24 → v = s.ops.counterLo)
      ∧ (off = 0x28 → v = s.ops.keyLen) ∧ (off = 0x2C → v = s.ops.tokLen) ∧ (off = 0x30 → v = s.ops.token0)
      ∧ (off = 0x34 → v = s.ops.token1)
      ∧ (0x40 ≤ off ∧ off ≤ 0x7C → v = 0x00000000#32)
      ∧ (∀ n : Fin 5, off = 0x80 + 4 * n.val → v = s.res.digest[n])
      ∧ (off = 0x94 → v = s.res.offset) ∧ (off = 0x98 → v = s.res.trunc) ∧ (off = 0x9C → v = s.res.codeVal)
      ∧ (off = 0xA0 → v = s.res.codeStr0) ∧ (off = 0xA4 → v = s.res.codeStr1)
      ∧ (off = 0x38 ∨ off = 0x3C ∨ 0xA8 ≤ off → v = 0x00000000#32)

/-- A write to an operand register while `SEQ = IDLE` stores the value, all 32 bits, and for `TOKEN1` bits 31:16; it checks
nothing and changes nothing else (R96). -/
def Obligations.OperandWriteStoresTheValue : Prop :=
  ∀ (s : State) (r : OperandReg) (v : Word), s.seq = .idle →
    ∃ t : State, hostWrite r.byteOffset 4 v s = .next t ∧ t = { s with ops := t.ops }
      ∧ t.ops.get r = (if r = .token1 then v &&& 0xFFFF0000#32 else v)
      ∧ ∀ q : OperandReg, q ≠ r → t.ops.get q = s.ops.get q

/-- A write to `CMD`, to an operand register or to a `KEYn` while `SEQ != IDLE` is ignored, whatever its value, and sets
`WRIGN`; nothing else changes (R97). -/
def Obligations.LockedWriteOnlySetsWrign : Prop :=
  ∀ (s : State) (off : Nat) (v : Word), s.seq ≠ .idle → off % 4 = 0 →
    (off = 0x04 ∨ (0x10 ≤ off ∧ off ≤ 0x34) ∨ (0x40 ≤ off ∧ off ≤ 0x7C)) →
    hostWrite off 4 v s = .next { s with status := { s.status with wrIgn := true } }

/-- A write to `STATUS`, in every `SEQ` state, clears `DONE`, `ERROR` with `ERRCODE`, and `WRIGN` where bits 1, 2 and 4 are
1; it changes nothing else (R98). -/
def Obligations.StatusWriteClearsFlags : Prop :=
  ∀ (s : State) (v : Word), hostWrite 0x08 4 v s = .next { s with
    status :=
      { done := if v.getLsbD 1 = true then false else s.status.done
        error := if v.getLsbD 2 = true then false else s.status.error
        errCode := if v.getLsbD 2 = true then 0#4 else s.status.errCode
        wrIgn := if v.getLsbD 4 = true then false else s.status.wrIgn
        matched := s.status.matched
        lastOp := s.status.lastOp } }

/-- A write to `CTRL`, in every `SEQ` state, is the soft reset if bit 31 is 1, with no other bit stored; else it stores the
two enables from bits 0 and 1 (R99). -/
def Obligations.CtrlWriteStoresOrResets : Prop :=
  ∀ (s : State) (v : Word),
    (v.getLsbD 31 = true → hostWrite 0x0C 4 v s =
        .next { State.reset with rstN := s.rstN, inputs := s.inputs, returned := s.returned })
      ∧ (v.getLsbD 31 = false → hostWrite 0x0C 4 v s =
        .next { s with ctrl := { ieDone := v.getLsbD 0, ieError := v.getLsbD 1 } })

/-- A write to `ID`, to a result register or to a reserved offset changes no state, in every `SEQ` state (R100). -/
def Obligations.ReadOnlyWritesAreIgnored : Prop :=
  ∀ (s : State) (off : Nat) (v : Word), off % 4 = 0 →
    (off = 0x00 ∨ off = 0x38 ∨ off = 0x3C ∨ (0x80 ≤ off ∧ off < 256)) →
    hostWrite off 4 v s = .next s

/-- The interrupt output: its level; the two causes exclude each other; a completion raises it by `IE_DONE`; a write of the
clear bits, or of cleared enables, lowers it, the latter without clearing a flag (60_exceptions.md section 4). -/
def Obligations.InterruptFollowsFlagsAndEnables : Prop :=
  ∀ s : State, s.Inv →
    (irq s = true ↔ (s.status.done = true ∧ s.ctrl.ieDone = true) ∨ (s.status.error = true ∧ s.ctrl.ieError = true))
      ∧ ¬ (s.status.done = true ∧ s.status.error = true)
      ∧ (∀ i : Instr, s.seq = .run i → irq s = false ∧ ∃ t : State, exec i s = .next t ∧ irq t = s.ctrl.ieDone)
      ∧ (∃ t : State, hostWrite 0x08 4 0x00000006#32 s = .next t ∧ irq t = false ∧ t.ctrl = s.ctrl)
      ∧ (∃ t : State, hostWrite 0x0C 4 0x00000000#32 s = .next t ∧ irq t = false ∧ t.status = s.status)
      ∧ ∃ t : State, hostWrite 0x0C 4 0x00000003#32 s = .next t ∧ t.status = s.status
          ∧ irq t = (s.status.done || s.status.error)

/-- An access that is not one aligned word is refused by name, and an aligned word access at 0x100 or above faults by name:
the model gives neither a meaning (20_memory.md section 3; 10_state.md section 6; that the model stops there, and with
which name, is its choice, log entries 4 and 5). -/
def Obligations.OtherAccessesStopByName : Prop :=
  ∀ (s : State) (off n : Nat) (v : Word),
    (n ≠ 4 ∨ off % 4 ≠ 0 → hostRead off n s = .refused .notATransaction ∧ hostWrite off n v s = .refused .notATransaction)
      ∧ (n = 4 → off % 4 = 0 → 256 ≤ off →
          hostRead off n s = .fault .outsideBlock ∧ hostWrite off n v s = .fault .outsideBlock)

/-- While every pending access is one the port carries, the machine never stops, and goes on meeting that; nothing else
raises an error and a running command cannot fail (60_exceptions.md section 1; 20_memory.md section 3 for what the port
carries). That a step takes exactly one event from the front of the list is the model's choice, log entry 1, and so is that
an access during reset is taken from it and lost, log entry 7. -/
def Obligations.CarriedAccessesNeverStopTheMachine : Prop :=
  ∀ s : State, s.InputsCarried → ∃ t : State, step s = .next t ∧ t.InputsCarried ∧ t.inputs = s.inputs.tail

/-! ## Reset -/

/-- Every piece of state after a hardware reset and after a soft reset, in any state before it (R37; 70_reset_and_hazards.md
R118, R119); `STATUS` and `CTRL` then read 0 and `irq` is 0. -/
def Obligations.ResetValues : Prop :=
  ∀ s : State,
    let block : Seq × Status × Ctrl × Operands × Results :=
      (.idle,
       { done := false, error := false, matched := false, wrIgn := false, errCode := 0#4, lastOp := 0x00#8 },
       { ieDone := false, ieError := false },
       { timeStep := 0x0000001E#32, window := 0x00000001#32, timeHi := 0#32, timeLo := 0#32, counterHi := 0#32,
         counterLo := 0#32, keyLen := 0#32, tokLen := 0#32, token0 := 0#32, token1 := 0#32,
         key := #v[0#32, 0#32, 0#32, 0#32, 0#32, 0#32, 0#32, 0#32, 0#32, 0#32, 0#32, 0#32, 0#32, 0#32, 0#32, 0#32] },
       { digest := #v[0#32, 0#32, 0#32, 0#32, 0#32], offset := 0#32, trunc := 0#32, codeVal := 0#32, codeStr0 := 0#32,
         codeStr1 := 0#32 })
    let shows : State → Prop := fun t =>
      (t.seq, t.status, t.ctrl, t.ops, t.res) = block
        ∧ readReg t .status = 0x00000000#32 ∧ readReg t .ctrl = 0x00000000#32 ∧ irq t = false
    shows State.reset
      ∧ (∃ t : State, serve .rstLow s = .next t ∧ shows t)
      ∧ (s.rstN = false → ∃ t : State, serve .rstHigh s = .next t ∧ shows t ∧ t.rstN = true)
      ∧ (∀ v : Word, v.getLsbD 31 = true → ∃ t : State, hostWrite 0x0C 4 v s = .next t ∧ shows t ∧ t.rstN = s.rstN)

/-- While `rst_n` is low no host access is served, and the engine takes no step: the block's state stays
(70_reset_and_hazards.md section 1; that such an access is lost, not held, is the model's choice, log entry 7). -/
def Obligations.NothingIsServedWhileInReset : Prop :=
  ∀ s : State, s.rstN = false →
    (∀ off n : Nat, serve (.read off n) s = .next s) ∧ (∀ (off n : Nat) (v : Word), serve (.write off n v) s = .next s)
      ∧ serve .engine s = .next s

/-! ## The whole machine -/

/-- The invariants hold right after reset (10_state.md R18, R27 to R33; 70_reset_and_hazards.md R118). -/
def Obligations.InvariantsHoldAtReset : Prop := State.reset.Inv

/-- Every step keeps the invariants: of the status flags, of the command in flight, of the reserved bits, of the result
registers (complete or all zero), and of the block held in reset (10_state.md section 3 to section 5). -/
def Obligations.StepKeepsTheInvariants : Prop :=
  ∀ s t : State, s.Inv → step s = .next t → t.Inv

/-- `SEQ` changes in exactly three ways: `IDLE -> RUN(op)` by the accepted write of a legal word whose operands are legal,
`RUN(op) -> IDLE` by the engine's completion, and any value `-> IDLE` by a reset, hard or soft (R15). -/
def Obligations.SequencerChangesInThreeWays : Prop :=
  ∀ s t : State, step s = .next t →
    t.seq = s.seq
      ∨ (∃ i : Instr, s.seq = .idle ∧ (nextEvent s).1 = .write 0x04 4 (encode i) ∧ s.ops.Legal i ∧ t.seq = .run i)
      ∨ (∃ i : Instr, s.seq = .run i ∧ (nextEvent s).1 = .engine ∧ t.seq = .idle ∧ t.status.done = true)
      ∨ (t.seq = .idle ∧ ((nextEvent s).1 = .rstLow ∨ (nextEvent s).1 = .rstHigh
          ∨ ∃ v : Word, v.getLsbD 31 = true ∧ (nextEvent s).1 = .write 0x0C 4 v))

/-- While a command stays in flight no host access changes its operands, the results, `MATCH` or `LASTOP`
(43_commands.md section 1). -/
def Obligations.OperandsHoldWhileInFlight : Prop :=
  ∀ (s t : State) (i : Instr), s.seq = .run i → step s = .next t → t.seq = .run i →
    t.ops = s.ops ∧ t.res = s.res ∧ t.status.matched = s.status.matched ∧ t.status.lastOp = s.status.lastOp

/-- An idle block does nothing until the next port access: from a final state the next state is final, a step changes
nothing but the list of events unless `rst_n` changes, and with no event pending it changes nothing (60_exceptions.md
section 6; 70_reset_and_hazards.md section 4; that the events to come are a list is the model's choice, log entries 1 and
19). -/
def Obligations.IdleBlockWaits : Prop :=
  ∀ s : State, s.Final →
    (s.inputs = [] → step s = .next s)
      ∧ ∃ t : State, step s = .next t ∧ t.Final
        ∧ ((nextEvent s).1 ≠ .rstLow → (nextEvent s).1 ≠ .rstHigh → t = { s with inputs := s.inputs.tail })

/-- A command in flight always ends: whatever carried accesses and resets are pending, the block is idle again after at
most one step for each of them and one more, and, where none of them resets it, with `DONE` set (43_commands.md section 1;
that the engine moves at the latest when nothing is pending is the model's choice, log entry 1). -/
def Obligations.CommandInFlightAlwaysEnds : Prop :=
  ∀ (s : State) (i : Instr), s.rstN = true → s.InputsCarried → s.seq = .run i →
    ∃ (n : Nat) (t : State), n ≤ s.inputs.length + 1 ∧ Host.Core.run Sys2Proof.core n s = .next t ∧ t.seq = .idle
      ∧ ((∀ e ∈ s.inputs, e ≠ .rstLow ∧ e ≠ .rstHigh ∧ ∀ (off n : Nat) (v : Word), e = .write off n v →
            off = 0x0C → v.getLsbD 31 = false) →
          t.status.done = true)

/-- The secret cannot be read back: two states that differ in the stored key words only stay so, and show the host the same
values and the same `irq`, over every step but the completion of a command that uses the key; and the completion of
`VERIFY` lets nothing of the key out but `MATCH` (10_state.md section 4; 43_commands.md section 4). -/
def Obligations.KeyIsNeverReadBack : Prop :=
  (∀ s t s' : State, SameButKey s t →
    (∀ i : Instr, s.seq = .run i → (nextEvent s).1 = .engine → i = .clear) →
    step s = .next s' → ∃ t' : State, step t = .next t' ∧ SameButKey s' t' ∧ observe s' = observe t')
  ∧ ∀ s t : State, SameButKey s t → s.seq = .run .verify →
      ∃ s' t' : State, exec .verify s = .next s' ∧ exec .verify t = .next t'
        ∧ SameButKey { s' with status := { s'.status with matched := false } }
            { t' with status := { t'.status with matched := false } }

/-! ## The engine's work -/

/-- The engine that works in the fixed units of R71 and R82, with every candidate walked, computes what the commands are
defined to compute (40_counter_sha1_hmac.md section 3; 42_time_window_compare.md section 3). -/
def Obligations.EngineComputesTheCommands : Prop :=
  ∀ (s : State) (i : Instr), s.seq = .run i → exec i s = .next (finish (engineWork i s).val)

/-- The sequence of engine operations of a command is a function of the opcode and of `WINDOW` only, and is the work R131
lists (70_reset_and_hazards.md section 4; the granularity of an operation is the model's, log entry 17). -/
def Obligations.EngineWorkIsDataIndependent : Prop :=
  (∀ (s t : State) (i : Instr), s.ops.window = t.ops.window → (engineWork i s).ops = (engineWork i t).ops)
    ∧ ∀ s : State,
        (engineWork .hotp s).ops = List.replicate 4 .compression ++ [.truncation, .rendering]
        ∧ (engineWork .totp s).ops = .divide :: (engineWork .hotp s).ops
        ∧ (engineWork .verify s).ops =
            .divide :: (List.replicate (2 * s.ops.window.toNat + 1) ((engineWork .hotp s).ops ++ [.comparison])).flatten
        ∧ (engineWork .clear s).ops = []

/-! ## The end of a run -/

/-- The end of a host program's run, once the host has performed its last transaction: a state is final when `SEQ = IDLE`,
it is not final when `SEQ != IDLE`, and a state with `ERROR` = 1 is final (70_reset_and_hazards.md section 4; that the
host's transactions to come are those of a list is the model's choice, log entries 1 and 19). -/
def Obligations.RunEndsIdleOrRefused : Prop :=
  (∀ s : State, s.seq ≠ .idle → ¬ s.Final)
    ∧ ∀ s : State, s.HostDone → (s.seq = .idle → s.Final) ∧ (s.Inv → s.status.error = true → s.Final)
end

