-- ==== Sys2Proof/Laws/Bits.lean ====
section
/-! SUPPORT. Byte order: joining and splitting words are inverse, and the counter encoder is the two halves in order. -/

namespace Sys2Proof.Machine

@[simp] theorem be32_length (w : Word) : (be32 w).length = 4 := rfl

theorem toNat_joinBytes (a b c d : Byte) :
    (joinBytes a b c d).toNat = ((a.toNat * 256 + b.toNat) * 256 + c.toNat) * 256 + d.toNat := by
  simp only [joinBytes, BitVec.toNat_append]
  rw [← Nat.shiftLeft_add_eq_or_of_lt b.isLt, ← Nat.shiftLeft_add_eq_or_of_lt c.isLt,
    ← Nat.shiftLeft_add_eq_or_of_lt d.isLt]
  simp only [Nat.shiftLeft_eq]

theorem be32_joinBytes (a b c d : Byte) : be32 (joinBytes a b c d) = [a, b, c, d] := by
  simp only [be32, List.cons.injEq, and_true]
  have h := toNat_joinBytes a b c d
  refine ⟨?_, ?_, ?_, ?_⟩ <;>
  · apply BitVec.eq_of_toNat_eq
    simp only [BitVec.extractLsb'_toNat, h, Nat.shiftRight_eq_div_pow]
    omega

theorem joinBytes_be32 (w : Word) : joinBytes (byteAt (be32 w) 0) (byteAt (be32 w) 1) (byteAt (be32 w) 2) (byteAt (be32 w) 3) = w := by
  apply BitVec.eq_of_toNat_eq
  rw [toNat_joinBytes]
  simp only [be32, byteAt, List.getD_cons_zero, List.getD_cons_succ, BitVec.extractLsb'_toNat, Nat.shiftRight_eq_div_pow]
  omega

theorem be32_injective {v w : Word} (h : be32 v = be32 w) : v = w := by
  rw [← joinBytes_be32 v, ← joinBytes_be32 w, h]

theorem keyByte_eq (o : Operands) (i : Nat) : o.keyByte i = byteAt (be32 (o.keyWord (i / 4))) (i % 4) := by
  have h : i % 4 < 4 := Nat.mod_lt _ (by decide)
  simp only [Operands.keyByte]
  interval_cases i % 4 <;>
  · apply BitVec.eq_of_toNat_eq
    simp [be32, byteAt, Nat.shiftRight_eq_div_pow]

@[simp] theorem be64_length (c : DWord) : (be64 c).length = 8 := by simp [be64]

theorem be64_join64 (hi lo : Word) : be64 (join64 hi lo) = be32 hi ++ be32 lo := by
  have h : (join64 hi lo).toNat = hi.toNat * 2 ^ 32 + lo.toNat := by
    rw [join64, BitVec.toNat_append, ← Nat.shiftLeft_add_eq_or_of_lt lo.isLt, Nat.shiftLeft_eq]
  simp only [be64, be32, List.range, List.range.loop, List.map, List.cons_append, List.nil_append, List.cons.injEq, and_true]
  refine ⟨?_, ?_, ?_, ?_, ?_, ?_, ?_, ?_⟩ <;>
  · apply BitVec.eq_of_toNat_eq
    simp only [BitVec.toNat_setWidth, BitVec.toNat_ushiftRight, BitVec.extractLsb'_toNat, h, Nat.shiftRight_eq_div_pow]
    have := hi.isLt; have := lo.isLt
    omega

theorem join64_hi32_lo32 (v : DWord) : join64 (hi32 v) (lo32 v) = v := by
  apply BitVec.eq_of_toNat_eq
  have h : (hi32 v).toNat = v.toNat / 2^32 := by
    simp only [hi32, BitVec.extractLsb'_toNat, Nat.shiftRight_eq_div_pow]; have := v.isLt; omega
  rw [join64, BitVec.toNat_append, ← Nat.shiftLeft_add_eq_or_of_lt (lo32 v).isLt, Nat.shiftLeft_eq, h]
  simp only [lo32, BitVec.extractLsb'_toNat, Nat.shiftRight_eq_div_pow]
  omega

theorem word_be32_append (w : Word) (s : List Byte) : word (be32 w ++ s) 0 = w := by
  conv_rhs => rw [← joinBytes_be32 w]
  rfl

@[simp] theorem counter_setCounter (o : Operands) (v : DWord) : (o.setCounter v).counter = v := join64_hi32_lo32 v

theorem bitWord_getLsbD (b : Bool) (i : Nat) : (bitWord b).getLsbD i = (decide (i = 0) && b) := by
  cases b <;> simp [bitWord]

theorem bitWord_getElem (b : Bool) (i : Nat) (h : i < 32) : (bitWord b)[i] = (decide (i = 0) && b) := bitWord_getLsbD b i

end Sys2Proof.Machine
end

