-- ==== Sys2Proof/Laws/Decode.lean ====
section
/-! SUPPORT. The command word as its two fields, and what the decoder needs of them. -/

namespace Sys2Proof

/-- A command word is its two fields, `ZERO` above `OPCODE`. -/
theorem word_eq_fields (w : Word) : w = zeroField w ++ opcodeField w := by
  apply BitVec.eq_of_getLsbD_eq
  intro i hi
  simp only [zeroField, opcodeField, BitVec.getLsbD_append, BitVec.getLsbD_extractLsb']
  split_ifs with h
  · simp [h]
  · simp [show 8 + (i - 8) = i by omega, show i - 8 < 24 by omega]

theorem commandOf_eq_some_iff (op : BitVec 8) (i : Instr) : commandOf op = some i ↔ op = opcodeOf i := by
  unfold commandOf
  constructor
  · intro h
    split_ifs at h <;> (cases h; assumption)
  · rintro rfl
    cases i <;> rfl

theorem decode_eq_ok_iff (w : Word) (i : Instr) :
    decode w = .ok i ↔ zeroField w = 0#24 ∧ opcodeField w = opcodeOf i := by
  unfold decode
  split_ifs with h
  · exact ⟨fun e => (nomatch e), fun e => absurd e.1 h⟩
  · rw [← commandOf_eq_some_iff]
    have h0 : zeroField w = 0#24 := by simpa using h
    cases hc : commandOf (opcodeField w) <;> simp [h0]

theorem opcodeField_eq_setWidth (w : Word) : opcodeField w = w.setWidth 8 := by
  apply BitVec.eq_of_toNat_eq
  simp [opcodeField]

end Sys2Proof
end

