-- ==== Sys2Proof/Laws/State.lean ====
section
/-! SUPPORT. One lemma per field of State per update, true by unfolding once, so that no later proof unfolds a record
update. -/

namespace Sys2Proof.Machine

/-! ### `raise`: writes `STATUS` -/

@[simp] theorem raise_seq (e : Err) (s : State) : (raise e s).seq = s.seq := rfl
@[simp] theorem raise_status (e : Err) (s : State) : (raise e s).status = { s.status with error := true, errCode := e.code } := rfl
@[simp] theorem raise_ctrl (e : Err) (s : State) : (raise e s).ctrl = s.ctrl := rfl
@[simp] theorem raise_ops (e : Err) (s : State) : (raise e s).ops = s.ops := rfl
@[simp] theorem raise_res (e : Err) (s : State) : (raise e s).res = s.res := rfl
@[simp] theorem raise_rstN (e : Err) (s : State) : (raise e s).rstN = s.rstN := rfl
@[simp] theorem raise_inputs (e : Err) (s : State) : (raise e s).inputs = s.inputs := rfl
@[simp] theorem raise_returned (e : Err) (s : State) : (raise e s).returned = s.returned := rfl

/-! ### `writeStatus`: writes `STATUS` -/

@[simp] theorem writeStatus_seq (v : Word) (s : State) : (writeStatus v s).seq = s.seq := rfl
@[simp] theorem writeStatus_status (v : Word) (s : State) : (writeStatus v s).status = clearFlags v s.status := rfl
@[simp] theorem writeStatus_ctrl (v : Word) (s : State) : (writeStatus v s).ctrl = s.ctrl := rfl
@[simp] theorem writeStatus_ops (v : Word) (s : State) : (writeStatus v s).ops = s.ops := rfl
@[simp] theorem writeStatus_res (v : Word) (s : State) : (writeStatus v s).res = s.res := rfl
@[simp] theorem writeStatus_rstN (v : Word) (s : State) : (writeStatus v s).rstN = s.rstN := rfl
@[simp] theorem writeStatus_inputs (v : Word) (s : State) : (writeStatus v s).inputs = s.inputs := rfl
@[simp] theorem writeStatus_returned (v : Word) (s : State) : (writeStatus v s).returned = s.returned := rfl

/-! ### `beginCommand`: writes `STATUS` and the results -/

@[simp] theorem beginCommand_seq (low : BitVec 8) (s : State) : (beginCommand low s).seq = s.seq := rfl
@[simp] theorem beginCommand_status (low : BitVec 8) (s : State) : (beginCommand low s).status = 
      { s.status with done := false, error := false, errCode := 0#4, matched := false, lastOp := low } := rfl
@[simp] theorem beginCommand_ctrl (low : BitVec 8) (s : State) : (beginCommand low s).ctrl = s.ctrl := rfl
@[simp] theorem beginCommand_ops (low : BitVec 8) (s : State) : (beginCommand low s).ops = s.ops := rfl
@[simp] theorem beginCommand_res (low : BitVec 8) (s : State) : (beginCommand low s).res = Results.zero := rfl
@[simp] theorem beginCommand_rstN (low : BitVec 8) (s : State) : (beginCommand low s).rstN = s.rstN := rfl
@[simp] theorem beginCommand_inputs (low : BitVec 8) (s : State) : (beginCommand low s).inputs = s.inputs := rfl
@[simp] theorem beginCommand_returned (low : BitVec 8) (s : State) : (beginCommand low s).returned = s.returned := rfl

/-! ### `refuse`: writes `STATUS` and the results -/

@[simp] theorem refuse_seq (low : BitVec 8) (e : Err) (s : State) : (refuse low e s).seq = s.seq := rfl
@[simp] theorem refuse_status (low : BitVec 8) (e : Err) (s : State) : (refuse low e s).status = 
      { s.status with done := false, error := true, errCode := e.code, matched := false, lastOp := low } := rfl
@[simp] theorem refuse_ctrl (low : BitVec 8) (e : Err) (s : State) : (refuse low e s).ctrl = s.ctrl := rfl
@[simp] theorem refuse_ops (low : BitVec 8) (e : Err) (s : State) : (refuse low e s).ops = s.ops := rfl
@[simp] theorem refuse_res (low : BitVec 8) (e : Err) (s : State) : (refuse low e s).res = Results.zero := rfl
@[simp] theorem refuse_rstN (low : BitVec 8) (e : Err) (s : State) : (refuse low e s).rstN = s.rstN := rfl
@[simp] theorem refuse_inputs (low : BitVec 8) (e : Err) (s : State) : (refuse low e s).inputs = s.inputs := rfl
@[simp] theorem refuse_returned (low : BitVec 8) (e : Err) (s : State) : (refuse low e s).returned = s.returned := rfl

/-! ### `finish`: writes `SEQ` and `DONE` -/

@[simp] theorem finish_seq (s : State) : (finish s).seq = .idle := rfl
@[simp] theorem finish_status (s : State) : (finish s).status = { s.status with done := true } := rfl
@[simp] theorem finish_ctrl (s : State) : (finish s).ctrl = s.ctrl := rfl
@[simp] theorem finish_ops (s : State) : (finish s).ops = s.ops := rfl
@[simp] theorem finish_res (s : State) : (finish s).res = s.res := rfl
@[simp] theorem finish_rstN (s : State) : (finish s).rstN = s.rstN := rfl
@[simp] theorem finish_inputs (s : State) : (finish s).inputs = s.inputs := rfl
@[simp] theorem finish_returned (s : State) : (finish s).returned = s.returned := rfl

/-! ### `ignoreLocked`: writes `WRIGN` -/

@[simp] theorem ignoreLocked_seq (s : State) : (ignoreLocked s).seq = s.seq := rfl
@[simp] theorem ignoreLocked_status (s : State) : (ignoreLocked s).status = { s.status with wrIgn := true } := rfl
@[simp] theorem ignoreLocked_ctrl (s : State) : (ignoreLocked s).ctrl = s.ctrl := rfl
@[simp] theorem ignoreLocked_ops (s : State) : (ignoreLocked s).ops = s.ops := rfl
@[simp] theorem ignoreLocked_res (s : State) : (ignoreLocked s).res = s.res := rfl
@[simp] theorem ignoreLocked_rstN (s : State) : (ignoreLocked s).rstN = s.rstN := rfl
@[simp] theorem ignoreLocked_inputs (s : State) : (ignoreLocked s).inputs = s.inputs := rfl
@[simp] theorem ignoreLocked_returned (s : State) : (ignoreLocked s).returned = s.returned := rfl

/-! ### `resetBlock`: writes the whole block -/

@[simp] theorem resetBlock_seq (s : State) : (resetBlock s).seq = .idle := rfl
@[simp] theorem resetBlock_status (s : State) : (resetBlock s).status = Status.reset := rfl
@[simp] theorem resetBlock_ctrl (s : State) : (resetBlock s).ctrl = Ctrl.reset := rfl
@[simp] theorem resetBlock_ops (s : State) : (resetBlock s).ops = Operands.reset := rfl
@[simp] theorem resetBlock_res (s : State) : (resetBlock s).res = Results.zero := rfl
@[simp] theorem resetBlock_rstN (s : State) : (resetBlock s).rstN = s.rstN := rfl
@[simp] theorem resetBlock_inputs (s : State) : (resetBlock s).inputs = s.inputs := rfl
@[simp] theorem resetBlock_returned (s : State) : (resetBlock s).returned = s.returned := rfl

/-! ### `assertReset`: writes the whole block and the pin -/

@[simp] theorem assertReset_seq (s : State) : (assertReset s).seq = .idle := rfl
@[simp] theorem assertReset_status (s : State) : (assertReset s).status = Status.reset := rfl
@[simp] theorem assertReset_ctrl (s : State) : (assertReset s).ctrl = Ctrl.reset := rfl
@[simp] theorem assertReset_ops (s : State) : (assertReset s).ops = Operands.reset := rfl
@[simp] theorem assertReset_res (s : State) : (assertReset s).res = Results.zero := rfl
@[simp] theorem assertReset_rstN (s : State) : (assertReset s).rstN = false := rfl
@[simp] theorem assertReset_inputs (s : State) : (assertReset s).inputs = s.inputs := rfl
@[simp] theorem assertReset_returned (s : State) : (assertReset s).returned = s.returned := rfl

/-! ### `hotpEffect`: writes the results -/

@[simp] theorem hotpEffect_seq (s : State) : (hotpEffect s).seq = s.seq := rfl
@[simp] theorem hotpEffect_status (s : State) : (hotpEffect s).status = s.status := rfl
@[simp] theorem hotpEffect_ctrl (s : State) : (hotpEffect s).ctrl = s.ctrl := rfl
@[simp] theorem hotpEffect_ops (s : State) : (hotpEffect s).ops = s.ops := rfl
@[simp] theorem hotpEffect_res (s : State) : (hotpEffect s).res = (hotp s.ops.paddedKey s.ops.counter).registers := rfl
@[simp] theorem hotpEffect_rstN (s : State) : (hotpEffect s).rstN = s.rstN := rfl
@[simp] theorem hotpEffect_inputs (s : State) : (hotpEffect s).inputs = s.inputs := rfl
@[simp] theorem hotpEffect_returned (s : State) : (hotpEffect s).returned = s.returned := rfl

/-! ### `storeBase`: writes `COUNTER` -/

@[simp] theorem storeBase_seq (s : State) : (storeBase s).seq = s.seq := rfl
@[simp] theorem storeBase_status (s : State) : (storeBase s).status = s.status := rfl
@[simp] theorem storeBase_ctrl (s : State) : (storeBase s).ctrl = s.ctrl := rfl
@[simp] theorem storeBase_ops (s : State) : (storeBase s).ops = s.ops.setCounter (baseCounter s.ops.time s.ops.timeStep) := rfl
@[simp] theorem storeBase_res (s : State) : (storeBase s).res = s.res := rfl
@[simp] theorem storeBase_rstN (s : State) : (storeBase s).rstN = s.rstN := rfl
@[simp] theorem storeBase_inputs (s : State) : (storeBase s).inputs = s.inputs := rfl
@[simp] theorem storeBase_returned (s : State) : (storeBase s).returned = s.returned := rfl

/-! ### `totpEffect`: writes `COUNTER` and the results -/

@[simp] theorem totpEffect_seq (s : State) : (totpEffect s).seq = s.seq := rfl
@[simp] theorem totpEffect_status (s : State) : (totpEffect s).status = s.status := rfl
@[simp] theorem totpEffect_ctrl (s : State) : (totpEffect s).ctrl = s.ctrl := rfl
@[simp] theorem totpEffect_ops (s : State) : (totpEffect s).ops = s.ops.setCounter (baseCounter s.ops.time s.ops.timeStep) := rfl
@[simp] theorem totpEffect_rstN (s : State) : (totpEffect s).rstN = s.rstN := rfl
@[simp] theorem totpEffect_inputs (s : State) : (totpEffect s).inputs = s.inputs := rfl
@[simp] theorem totpEffect_returned (s : State) : (totpEffect s).returned = s.returned := rfl

/-! ### `verifyEffect`: writes `COUNTER` and `MATCH` -/

@[simp] theorem verifyEffect_seq (s : State) : (verifyEffect s).seq = s.seq := rfl
@[simp] theorem verifyEffect_status (s : State) : (verifyEffect s).status = 
      { s.status with
        matched := windowMatch s.ops.paddedKey (baseCounter s.ops.time s.ops.timeStep) s.ops.window.toNat s.ops.token } := rfl
@[simp] theorem verifyEffect_ctrl (s : State) : (verifyEffect s).ctrl = s.ctrl := rfl
@[simp] theorem verifyEffect_ops (s : State) : (verifyEffect s).ops = s.ops.setCounter (baseCounter s.ops.time s.ops.timeStep) := rfl
@[simp] theorem verifyEffect_res (s : State) : (verifyEffect s).res = s.res := rfl
@[simp] theorem verifyEffect_rstN (s : State) : (verifyEffect s).rstN = s.rstN := rfl
@[simp] theorem verifyEffect_inputs (s : State) : (verifyEffect s).inputs = s.inputs := rfl
@[simp] theorem verifyEffect_returned (s : State) : (verifyEffect s).returned = s.returned := rfl

/-! ### `clearEffect`: writes the operands `CLEAR` zeroes -/

@[simp] theorem clearEffect_seq (s : State) : (clearEffect s).seq = s.seq := rfl
@[simp] theorem clearEffect_status (s : State) : (clearEffect s).status = s.status := rfl
@[simp] theorem clearEffect_ctrl (s : State) : (clearEffect s).ctrl = s.ctrl := rfl
@[simp] theorem clearEffect_res (s : State) : (clearEffect s).res = s.res := rfl
@[simp] theorem clearEffect_rstN (s : State) : (clearEffect s).rstN = s.rstN := rfl
@[simp] theorem clearEffect_inputs (s : State) : (clearEffect s).inputs = s.inputs := rfl
@[simp] theorem clearEffect_returned (s : State) : (clearEffect s).returned = s.returned := rfl

/-! ### Operand registers under their own updates -/

@[simp] theorem setCounter_timeStep (o : Operands) (v : DWord) : (o.setCounter v).timeStep = o.timeStep := rfl
@[simp] theorem setCounter_window (o : Operands) (v : DWord) : (o.setCounter v).window = o.window := rfl
@[simp] theorem setCounter_time (o : Operands) (v : DWord) : (o.setCounter v).time = o.time := rfl
@[simp] theorem setCounter_keyLen (o : Operands) (v : DWord) : (o.setCounter v).keyLen = o.keyLen := rfl
@[simp] theorem setCounter_key (o : Operands) (v : DWord) : (o.setCounter v).key = o.key := rfl
@[simp] theorem setCounter_token (o : Operands) (v : DWord) : (o.setCounter v).token = o.token := rfl
@[simp] theorem setCounter_token1 (o : Operands) (v : DWord) : (o.setCounter v).token1 = o.token1 := rfl
@[simp] theorem setCounter_paddedKey (o : Operands) (v : DWord) : (o.setCounter v).paddedKey = o.paddedKey := rfl
@[simp] theorem clearEffect_timeStep (s : State) : (clearEffect s).ops.timeStep = s.ops.timeStep := rfl
@[simp] theorem clearEffect_window (s : State) : (clearEffect s).ops.window = s.ops.window := rfl
@[simp] theorem clearEffect_token1 (s : State) : (clearEffect s).ops.token1 = 0#32 := rfl

end Sys2Proof.Machine
end

