-- ==== Sys2Proof/Laws/Ops.lean ====
section
/-! SUPPORT. The offset map at each special register, the operand store, and the status word's flags. -/

namespace Sys2Proof.Machine

@[simp] theorem regAt_id : regAt 0x00 = .id := rfl
@[simp] theorem regAt_cmd : regAt 0x04 = .cmd := rfl
@[simp] theorem regAt_status : regAt 0x08 = .status := rfl
@[simp] theorem regAt_ctrl : regAt 0x0C = .ctrl := rfl

/-- What stands at an offset, if anything does, has a row of the register map. -/
theorem regAt_row {off : Nat} {r : Reg} (h : regAt off = r) (hr : r ≠ .reserved) : (off, r) ∈ registerMap := by
  unfold regAt at h
  cases hl : registerMap.lookup off with
  | none => exact absurd (by rw [← h, hl]; rfl) hr
  | some q =>
    obtain rfl : q = r := by rw [← h, hl]; rfl
    obtain ⟨l₁, l₂, he, -⟩ := List.lookup_eq_some_iff.mp hl
    rw [he]
    simp

theorem regAt_eq_cmd_iff (off : Nat) : regAt off = .cmd ↔ off = 0x04 := by
  refine ⟨fun h => ?_, fun h => h ▸ rfl⟩
  simpa [registerMap, controlRows, operandRows, keyRows, digestRows, resultRows] using regAt_row h (by decide)

theorem regAt_eq_ctrl_iff (off : Nat) : regAt off = .ctrl ↔ off = 0x0C := by
  refine ⟨fun h => ?_, fun h => h ▸ rfl⟩
  simpa [registerMap, controlRows, operandRows, keyRows, digestRows, resultRows] using regAt_row h (by decide)

theorem regAt_eq_status_iff (off : Nat) : regAt off = .status ↔ off = 0x08 := by
  refine ⟨fun h => ?_, fun h => h ▸ rfl⟩
  simpa [registerMap, controlRows, operandRows, keyRows, digestRows, resultRows] using regAt_row h (by decide)

/-- Reading a stored operand register back (R96). -/
theorem get_put_same (o : Operands) (v : Word) (r : OperandReg) :
    (o.put v r).get r = if r = .token1 then v &&& 0xFFFF0000#32 else v := by
  cases r <;> simp [Operands.put, Operands.get]

/-- A store reaches no other operand register (R96). -/
theorem get_put_other (o : Operands) (v : Word) (r q : OperandReg) (h : q ≠ r) : (o.put v r).get q = o.get q := by
  cases r <;> cases q <;> simp [Operands.put, Operands.get] at h ⊢
  rename_i m n
  exact Vector.getElem_set_ne _ _ (fun e => h (Fin.ext e.symm))

/-- The unimplemented half of `TOKEN1` stays 0 under every store (R27). -/
theorem put_token1_low (o : Operands) (v : Word) (r : OperandReg) (h : o.token1.setWidth 16 = 0#16) :
    (o.put v r).token1.setWidth 16 = 0#16 := by
  cases r <;> try exact h
  show (v &&& 0xFFFF0000#32).setWidth 16 = 0#16
  rw [BitVec.setWidth_and]
  exact BitVec.and_zero

/-- The reset of the block leaves nothing of the state before it but what is not the block's. -/
theorem resetBlock_resetBlock (s : State) : resetBlock (resetBlock s) = resetBlock s := rfl

end Sys2Proof.Machine
end

