-- ==== Sys2Proof/Laws/Commands.lean ====
section
/-! SUPPORT. What a command can do: when its checks pass, what acceptance and completion answer, and that there is no third
thing. -/

namespace Sys2Proof.Machine

/-! ### The checks -/

theorem keyError_cases (o : Operands) :
    (o.KeyLegal ∧ keyError o = none) ∨ (¬ o.KeyLegal ∧ keyError o = some .invalidSecret) := by
  unfold keyError Operands.KeyLegal Config.keyMax
  have h0 : o.keyLen = 0#32 ↔ o.keyLen.toNat = 0 := by simp [BitVec.toNat_eq]
  split_ifs with h <;> rw [h0] at h
  · exact .inr ⟨by omega, rfl⟩
  · exact .inl ⟨by omega, rfl⟩

theorem timeStepError_cases (o : Operands) :
    (o.StepLegal ∧ timeStepError o = none) ∨ (¬ o.StepLegal ∧ timeStepError o = some .invalidArgument) := by
  unfold timeStepError Operands.StepLegal
  have h0 : o.timeStep = 0#32 ↔ o.timeStep.toNat = 0 := by simp [BitVec.toNat_eq]
  have h1 : o.timeStep.getLsbD 31 = true ↔ 2147483648 ≤ o.timeStep.toNat := by
    rw [← BitVec.msb_eq_getLsbD_last, BitVec.msb_eq_decide, decide_eq_true_iff]
  split_ifs with h <;> rw [h0, h1] at h
  · exact .inr ⟨by omega, rfl⟩
  · exact .inl ⟨by omega, rfl⟩

theorem windowError_cases (o : Operands) :
    (o.WindowLegal ∧ windowError o = none) ∨ (¬ o.WindowLegal ∧ windowError o = some .invalidArgument) := by
  unfold windowError Operands.WindowLegal Config.windowMax
  split_ifs with h
  · exact .inr ⟨by omega, rfl⟩
  · exact .inl ⟨by omega, rfl⟩

/-- The checks of a command pass exactly on legal operands (R85). -/
theorem checksOf_eq_none_iff (i : Instr) (o : Operands) : checksOf i o = none ↔ o.Legal i := by
  have k := keyError_cases o
  have t := timeStepError_cases o
  have w := windowError_cases o
  cases i
  · rcases k with ⟨hk, ek⟩ | ⟨hk, ek⟩ <;> simp [checksOf, hotpChecks, Operands.Legal, hk, ek]
  · rcases k with ⟨hk, ek⟩ | ⟨hk, ek⟩ <;> rcases t with ⟨ht, et⟩ | ⟨ht, et⟩ <;>
      simp [checksOf, totpChecks, Operands.Legal, hk, ek, ht, et]
  · rcases k with ⟨hk, ek⟩ | ⟨hk, ek⟩ <;> rcases t with ⟨ht, et⟩ | ⟨ht, et⟩ <;> rcases w with ⟨hw, ew⟩ | ⟨hw, ew⟩ <;>
      simp [checksOf, verifyChecks, Operands.Legal, hk, ek, ht, et, hw, ew]
  · simp [checksOf, clearChecks, Operands.Legal]

/-- No check raises `IllegalCommand`; that is the decoder's. -/
theorem checksOf_ne_illegalCommand (i : Instr) (o : Operands) : checksOf i o ≠ some .illegalCommand := by
  have k := keyError_cases o
  have t := timeStepError_cases o
  have w := windowError_cases o
  cases i
  · rcases k with ⟨_, ek⟩ | ⟨_, ek⟩ <;> simp [checksOf, hotpChecks, ek]
  · rcases k with ⟨_, ek⟩ | ⟨_, ek⟩ <;> rcases t with ⟨_, et⟩ | ⟨_, et⟩ <;> simp [checksOf, totpChecks, ek, et]
  · rcases k with ⟨_, ek⟩ | ⟨_, ek⟩ <;> rcases t with ⟨_, et⟩ | ⟨_, et⟩ <;> rcases w with ⟨_, ew⟩ | ⟨_, ew⟩ <;>
      simp [checksOf, verifyChecks, ek, et, ew]
  · simp [checksOf, clearChecks]

/-! ### The two moments -/

theorem exec_eq_command (i : Instr) (s : State) : exec i s = command i (checksOf i) (effectOf i) s := by
  cases i <;> rfl

theorem exec_idle (i : Instr) (s : State) (h : s.seq = .idle) : exec i s = .next (accept i (checksOf i s.ops) s) := by
  rw [exec_eq_command, command, h]

theorem exec_run (i : Instr) (s : State) (h : s.seq = .run i) : exec i s = .next (finish (effectOf i s)) := by
  rw [exec_eq_command, command, h]
  simp

theorem exec_other (i j : Instr) (s : State) (h : s.seq = .run j) (hj : j ≠ i) : exec i s = .next (ignoreLocked s) := by
  rw [exec_eq_command, command, h]
  simp [hj]

theorem accept_some (i : Instr) (e : Err) (s : State) : accept i (some e) s = refuse (opcodeOf i) e s := rfl

theorem accept_none (i : Instr) (s : State) :
    accept i none s = { beginCommand (opcodeOf i) s with seq := .run i } := rfl

/-- Acceptance either starts the command, its operands being legal, or refuses it with one error. -/
theorem accept_cases (i : Instr) (s : State) :
    (s.ops.Legal i ∧ accept i (checksOf i s.ops) s = { beginCommand (opcodeOf i) s with seq := .run i })
      ∨ (¬ s.ops.Legal i ∧ ∃ e : Err, checksOf i s.ops = some e ∧ e ≠ .illegalCommand
          ∧ accept i (checksOf i s.ops) s = refuse (opcodeOf i) e s) := by
  rw [← checksOf_eq_none_iff]
  cases h : checksOf i s.ops with
  | none => exact .inl ⟨rfl, rfl⟩
  | some e => exact .inr ⟨by simp, e, rfl, fun he => checksOf_ne_illegalCommand i s.ops (he ▸ h), rfl⟩

/-! ### What an effect leaves alone -/

@[simp] theorem effectOf_ctrl (i : Instr) (s : State) : (effectOf i s).ctrl = s.ctrl := by cases i <;> rfl
@[simp] theorem effectOf_rstN (i : Instr) (s : State) : (effectOf i s).rstN = s.rstN := by cases i <;> rfl
@[simp] theorem effectOf_inputs (i : Instr) (s : State) : (effectOf i s).inputs = s.inputs := by cases i <;> rfl
@[simp] theorem effectOf_returned (i : Instr) (s : State) : (effectOf i s).returned = s.returned := by cases i <;> rfl
@[simp] theorem effectOf_seq (i : Instr) (s : State) : (effectOf i s).seq = s.seq := by cases i <;> rfl

/-! ### What an effect writes -/

theorem totpEffect_res (s : State) :
    (totpEffect s).res = (hotp s.ops.paddedKey (baseCounter s.ops.time s.ops.timeStep)).registers := by
  rw [totpEffect, hotpEffect_res, storeBase_ops, setCounter_paddedKey, counter_setCounter]

/-- `VERIFY` completed with verdict `m`. -/
def concluded (m : Bool) (s : State) : State :=
  { s with
    seq := .idle
    status := { s.status with done := true, matched := m }
    ops := s.ops.setCounter (baseCounter s.ops.time s.ops.timeStep) }

theorem finish_effectOf_verify (s : State) :
    finish (effectOf .verify s) =
      concluded (windowMatch s.ops.paddedKey (baseCounter s.ops.time s.ops.timeStep) s.ops.window.toNat s.ops.token) s :=
  rfl

/-! ### A command always answers a next state -/

theorem exec_next (i : Instr) (s : State) : ∃ t, exec i s = .next t ∧ t.inputs = s.inputs := by
  cases hs : s.seq with
  | idle => refine ⟨_, exec_idle i s hs, ?_⟩; cases checksOf i s.ops <;> rfl
  | run j =>
    by_cases h : j = i
    · subst h; exact ⟨_, exec_run _ s hs, by simp⟩
    · exact ⟨_, exec_other _ _ s hs h, rfl⟩

end Sys2Proof.Machine
end

