-- ==== Sys2Proof/Laws/Access.lean ====
section
/-! SUPPORT. Everything the service of one event can do, said once. -/

namespace Sys2Proof.Machine

/-- Everything a served event can make of a state: one constructor for each row of spec/44_host_access.md R95 in each of
its cases, and one for each step of the engine and of the reset source. -/
inductive Served : Event → State → State → Prop
  | read (off : Nat) (s : State) (hr : s.rstN = true) (h4 : off % 4 = 0) (hlt : off < 256) :
      Served (.read off 4) s { s with returned := readReg s (regAt off) :: s.returned }
  | status (v : Word) (s : State) (hr : s.rstN = true) : Served (.write 0x08 4 v) s (writeStatus v s)
  | enables (v : Word) (s : State) (hr : s.rstN = true) (hv : v.getLsbD 31 = false) :
      Served (.write 0x0C 4 v) s { s with ctrl := ctrlOf v }
  | softReset (v : Word) (s : State) (hr : s.rstN = true) (hv : v.getLsbD 31 = true) :
      Served (.write 0x0C 4 v) s (resetBlock s)
  | accepted (v : Word) (i : Instr) (s : State) (hr : s.rstN = true) (hs : s.seq = .idle) (hd : decode v = .ok i)
      (hl : s.ops.Legal i) : Served (.write 0x04 4 v) s { beginCommand (opcodeOf i) s with seq := .run i }
  | refused (v : Word) (low : BitVec 8) (e : Err) (s : State) (hr : s.rstN = true) (hs : s.seq = .idle)
      (hw : (∃ i, decode v = .ok i ∧ low = opcodeOf i ∧ checksOf i s.ops = some e)
        ∨ ((∃ x, decode v = .error x) ∧ low = opcodeField v ∧ e = .illegalCommand)) :
      Served (.write 0x04 4 v) s (refuse low e s)
  | stored (off : Nat) (r : OperandReg) (v : Word) (s : State) (hr : s.rstN = true) (hs : s.seq = .idle)
      (hreg : regAt off = .operand r) : Served (.write off 4 v) s { s with ops := s.ops.put v r }
  | locked (off : Nat) (v : Word) (s : State) (hr : s.rstN = true) (hs : s.seq ≠ .idle)
      (hreg : regAt off = .cmd ∨ ∃ r, regAt off = .operand r) : Served (.write off 4 v) s (ignoreLocked s)
  | readOnly (off : Nat) (v : Word) (s : State) (hr : s.rstN = true)
      (hreg : regAt off = .id ∨ regAt off = .reserved ∨ ∃ r, regAt off = .result r) : Served (.write off 4 v) s s
  | completed (i : Instr) (s : State) (hr : s.rstN = true) (hs : s.seq = .run i) :
      Served .engine s (finish (effectOf i s))
  | nothingToDo (s : State) (hr : s.rstN = true) (hs : s.seq = .idle) : Served .engine s s
  | inReset (e : Event) (s : State) (hr : s.rstN = false) (hl : e ≠ .rstLow) (hh : e ≠ .rstHigh) : Served e s s
  | resetLow (s : State) : Served .rstLow s (assertReset s)
  | resetHigh (s : State) (hr : s.rstN = false) : Served .rstHigh s { resetBlock s with rstN := true }
  | released (s : State) (hr : s.rstN = true) : Served .rstHigh s s

theorem writeOperand_cases (r : OperandReg) (v : Word) (s : State) :
    (s.seq = .idle ∧ writeOperand r v s = { s with ops := s.ops.put v r })
      ∨ (s.seq ≠ .idle ∧ writeOperand r v s = ignoreLocked s) := by
  unfold writeOperand
  cases h : s.seq <;> simp

theorem writeCmd_ok {v : Word} {i : Instr} {s : State} (hs : s.seq = .idle) (hd : decode v = .ok i) :
    writeCmd v s = exec i s := by
  unfold writeCmd
  rw [hs, hd]

theorem writeCmd_error {v : Word} {e : DecodeError} {s : State} (hs : s.seq = .idle) (hd : decode v = .error e) :
    writeCmd v s = .next (refuse (opcodeField v) .illegalCommand s) := by
  unfold writeCmd
  rw [hs, hd]

theorem writeCmd_idle (v : Word) (s : State) (h : s.seq = .idle) :
    (∃ i, decode v = .ok i ∧ writeCmd v s = exec i s)
      ∨ ((∃ e, decode v = .error e) ∧ writeCmd v s = .next (refuse (opcodeField v) .illegalCommand s)) := by
  cases hd : decode v with
  | ok i => exact .inl ⟨i, rfl, writeCmd_ok h hd⟩
  | error e => exact .inr ⟨⟨e, rfl⟩, writeCmd_error h hd⟩

theorem writeCmd_busy (v : Word) (s : State) (h : s.seq ≠ .idle) : writeCmd v s = .next (ignoreLocked s) := by
  unfold writeCmd
  cases hs : s.seq with
  | idle => exact absurd hs h
  | run _ => rfl

theorem isTransaction_iff (off n : Nat) : isTransaction off n = true ↔ n = 4 ∧ off % 4 = 0 := by
  simp [isTransaction, Config.accessBytes]

theorem inBlock_iff (off : Nat) : inBlock off = true ↔ off < 256 := by
  rw [inBlock, Config.spaceBytes, decide_eq_true_iff]

/-- A carried read answers, and only the returned value is new (R45, R94). -/
theorem hostRead_carried (off : Nat) (s : State) (h4 : off % 4 = 0) (h : off < 256) :
    hostRead off 4 s = .next { s with returned := readReg s (regAt off) :: s.returned } := by
  unfold hostRead
  rw [(isTransaction_iff off 4).mpr ⟨rfl, h4⟩, (inBlock_iff off).mpr h]
  rfl

/-- A carried write goes to its register (R95). -/
theorem hostWrite_carried (off : Nat) (v : Word) (s : State) (h4 : off % 4 = 0) (h : off < 256) :
    hostWrite off 4 v s = writeReg v s (regAt off) := by
  unfold hostWrite
  rw [(isTransaction_iff off 4).mpr ⟨rfl, h4⟩, (inBlock_iff off).mpr h]
  rfl

theorem hostRead_next {off n : Nat} {s t : State} (h : hostRead off n s = .next t) :
    n = 4 ∧ off % 4 = 0 ∧ off < 256 ∧ t = { s with returned := readReg s (regAt off) :: s.returned } := by
  unfold hostRead at h
  split_ifs at h with h1 h2
  rw [Bool.not_eq_false, isTransaction_iff] at h1
  rw [Bool.not_eq_false, inBlock_iff] at h2
  cases h
  exact ⟨h1.1, h1.2, h2, rfl⟩

theorem hostWrite_next {off n : Nat} {v : Word} {s t : State} (h : hostWrite off n v s = .next t) :
    n = 4 ∧ off % 4 = 0 ∧ off < 256 ∧ writeReg v s (regAt off) = .next t := by
  unfold hostWrite at h
  split_ifs at h with h1 h2
  rw [Bool.not_eq_false, isTransaction_iff] at h1
  rw [Bool.not_eq_false, inBlock_iff] at h2
  exact ⟨h1.1, h1.2, h2, h⟩

theorem writeCmd_served {v : Word} {s t : State} (hr : s.rstN = true) (h : writeCmd v s = .next t) :
    Served (.write 0x04 4 v) s t := by
  by_cases hs : s.seq = .idle
  · obtain ⟨i, hd, hw⟩ | ⟨hd, hw⟩ := writeCmd_idle v s hs
    · rw [hw, exec_idle i s hs, Host.Outcome.next.injEq] at h
      subst h
      obtain ⟨hl, ha⟩ | ⟨-, e, he, -, ha⟩ := accept_cases i s
      · rw [ha]
        exact .accepted v i s hr hs hd hl
      · rw [ha]
        exact .refused v _ e s hr hs (.inl ⟨i, hd, rfl, he⟩)
    · rw [hw, Host.Outcome.next.injEq] at h
      subst h
      exact .refused v _ _ s hr hs (.inr ⟨hd, rfl, rfl⟩)
  · rw [writeCmd_busy v s hs, Host.Outcome.next.injEq] at h
    subst h
    exact .locked 0x04 v s hr hs (.inl regAt_cmd)

theorem hostWrite_served {off n : Nat} {v : Word} {s t : State} (hr : s.rstN = true)
    (h : hostWrite off n v s = .next t) : Served (.write off n v) s t := by
  obtain ⟨rfl, h4, hlt, h⟩ := hostWrite_next h
  cases hreg : regAt off with
  | status =>
    rw [hreg] at h
    cases h
    obtain rfl := (regAt_eq_status_iff off).mp hreg
    exact .status v s hr
  | ctrl =>
    rw [hreg] at h
    obtain rfl := (regAt_eq_ctrl_iff off).mp hreg
    cases h
    unfold writeCtrl
    split_ifs with hv
    · exact .softReset v s hr hv
    · exact .enables v s hr (by simpa using hv)
  | cmd =>
    rw [hreg] at h
    obtain rfl := (regAt_eq_cmd_iff off).mp hreg
    exact writeCmd_served hr h
  | operand r =>
    rw [hreg] at h
    cases h
    obtain ⟨hs, hw⟩ | ⟨hs, hw⟩ := writeOperand_cases r v s
    · rw [hw]
      exact .stored off r v s hr hs hreg
    · rw [hw]
      exact .locked off v s hr hs (.inr ⟨r, hreg⟩)
  | id => rw [hreg] at h; cases h; exact .readOnly off v s hr (.inl hreg)
  | result r => rw [hreg] at h; cases h; exact .readOnly off v s hr (.inr (.inr ⟨r, hreg⟩))
  | reserved => rw [hreg] at h; cases h; exact .readOnly off v s hr (.inr (.inl hreg))

theorem engineStep_served {s t : State} (hr : s.rstN = true) (h : engineStep s = .next t) : Served .engine s t := by
  unfold engineStep at h
  cases hs : s.seq with
  | idle =>
    rw [hs] at h
    cases h
    exact .nothingToDo _ hr hs
  | run i =>
    rw [hs] at h
    change exec i s = .next t at h
    rw [exec_run i s hs] at h
    cases h
    exact .completed i s hr hs

/-- What a served event does is one of the cases of `Served`. -/
theorem serve_served {e : Event} {s t : State} (h : serve e s = .next t) : Served e s t := by
  cases hr : s.rstN with
  | true =>
    cases e with
    | read off n =>
      rw [serve, if_pos hr] at h
      obtain ⟨rfl, h4, hlt, rfl⟩ := hostRead_next h
      exact .read off s hr h4 hlt
    | write off n v =>
      rw [serve, if_pos hr] at h
      exact hostWrite_served hr h
    | engine =>
      rw [serve, if_pos hr] at h
      exact engineStep_served hr h
    | rstLow =>
      cases h
      exact .resetLow s
    | rstHigh =>
      rw [serve, releaseReset, if_pos hr] at h
      cases h
      exact .released _ hr
  | false =>
    have hf : ¬ s.rstN = true := by simp [hr]
    cases e with
    | read off n => rw [serve, if_neg hf] at h; cases h; exact .inReset _ _ hr (fun e => nomatch e) (fun e => nomatch e)
    | write off n v => rw [serve, if_neg hf] at h; cases h; exact .inReset _ _ hr (fun e => nomatch e) (fun e => nomatch e)
    | engine => rw [serve, if_neg hf] at h; cases h; exact .inReset _ _ hr (fun e => nomatch e) (fun e => nomatch e)
    | rstLow =>
      cases h
      exact .resetLow s
    | rstHigh =>
      rw [serve, releaseReset, if_neg hf] at h
      cases h
      exact .resetHigh s hr

/-! ### A carried event is always served -/

theorem writeReg_next (v : Word) (s : State) (r : Reg) : ∃ t, writeReg v s r = .next t ∧ t.inputs = s.inputs := by
  cases r with
  | cmd =>
    by_cases hs : s.seq = .idle
    · obtain ⟨i, -, h⟩ | ⟨-, h⟩ := writeCmd_idle v s hs
      · obtain ⟨t, ht⟩ := exec_next i s
        exact ⟨t, h.trans ht.1, ht.2⟩
      · exact ⟨_, h, rfl⟩
    · exact ⟨_, writeCmd_busy v s hs, rfl⟩
  | ctrl => refine ⟨_, rfl, ?_⟩; unfold writeCtrl; split_ifs <;> rfl
  | operand r =>
    refine ⟨_, rfl, ?_⟩
    obtain ⟨-, h⟩ | ⟨-, h⟩ := writeOperand_cases r v s
    · rw [h]
    · rw [h, ignoreLocked_inputs]
  | id => exact ⟨_, rfl, rfl⟩
  | status => exact ⟨_, rfl, rfl⟩
  | result _ => exact ⟨_, rfl, rfl⟩
  | reserved => exact ⟨_, rfl, rfl⟩

theorem serve_next (e : Event) (s : State) (hc : e.Carried) : ∃ t, serve e s = .next t ∧ t.inputs = s.inputs := by
  by_cases hr : s.rstN = true
  · cases e with
    | read off n =>
      obtain ⟨rfl, h4, hlt⟩ := hc
      rw [serve, if_pos hr]
      exact ⟨_, hostRead_carried _ _ h4 hlt, rfl⟩
    | write off n v =>
      obtain ⟨rfl, h4, hlt⟩ := hc
      rw [serve, if_pos hr, hostWrite_carried _ _ _ h4 hlt]
      exact writeReg_next ..
    | engine =>
      rw [serve, if_pos hr, engineStep]
      cases hs : s.seq with
      | idle => exact ⟨_, rfl, rfl⟩
      | run i => exact exec_next i s
    | rstLow => exact ⟨_, rfl, rfl⟩
    | rstHigh => exact ⟨_, rfl, by rw [releaseReset, if_pos hr]⟩
  · cases e with
    | rstLow => exact ⟨_, rfl, rfl⟩
    | rstHigh => exact ⟨_, rfl, by rw [releaseReset, if_neg hr]; rfl⟩
    | read _ _ => exact ⟨_, by rw [serve, if_neg hr], rfl⟩
    | write _ _ _ => exact ⟨_, by rw [serve, if_neg hr], rfl⟩
    | engine => exact ⟨_, by rw [serve, if_neg hr], rfl⟩

end Sys2Proof.Machine
end

