-- ==== Sys2Proof/Laws/Hash.lean ====
section
/-! SUPPORT. SHA-1 and HMAC: lengths, padding, the schedule's length, hashing a message of one block and a short rest, and
blocks given as words. -/

namespace Sys2Proof.Machine

@[simp] theorem Chain.bytes_length (h : Chain) : h.bytes.length = 20 := rfl
@[simp] theorem sha1_length (m : List Byte) : (sha1 m).length = 20 := rfl
@[simp] theorem hmacSha1_length (k0 m : List Byte) : (hmacSha1 k0 m).length = 20 := rfl
@[simp] theorem ipad_length (k0 : List Byte) : (ipad k0).length = k0.length := by simp [ipad]
@[simp] theorem opad_length (k0 : List Byte) : (opad k0).length = k0.length := by simp [opad]
@[simp] theorem paddedKey_length (o : Operands) : o.paddedKey.length = 64 := by
  simp [Operands.paddedKey, Config.blockBytes]

theorem padZeros_spec (n : Nat) : (n + 1 + padZeros n) % 64 = 56 := by unfold padZeros; omega

theorem padZeros_least (n y : Nat) (h : y < padZeros n) : (n + 1 + y) % 64 ≠ 56 := by unfold padZeros at h; omega

theorem pad_length (m : List Byte) : (pad m).length = m.length + 1 + padZeros m.length + 8 := by
  simp [pad]; omega

theorem foldBlocks_two (f : Chain → List Byte → Chain) (p q : List Byte) (h : Chain) (hp : p.length = 64)
    (hq : q.length = 64) : foldBlocks f 2 (p ++ q) h = f (f h p) q := by
  simp only [foldBlocks, Config.blockBytes]
  rw [List.take_left' hp, List.drop_left' hp, List.take_of_length_le (by omega)]

/-- A message of one whole block and at most 55 bytes more is hashed in two compressions. -/
theorem sha1Chain_two_blocks (p m : List Byte) (hp : p.length = 64) (hm : m.length ≤ 55) :
    sha1Chain (p ++ m) = compress (compress sha1Init p)
      (m ++ [0x80#8] ++ List.replicate (55 - m.length) 0#8 ++ be64 (BitVec.ofNat 64 (8 * (64 + m.length)))) := by
  have hz : padZeros (p ++ m).length = 55 - m.length := by
    rw [List.length_append, hp]; unfold padZeros; omega
  have hl : (pad (p ++ m)).length / Config.blockBytes = 2 := by
    rw [pad_length, hz, List.length_append, hp, Config.blockBytes]; omega
  have hpad : pad (p ++ m) = p ++ (m ++ [0x80#8] ++ List.replicate (55 - m.length) 0#8
      ++ be64 (BitVec.ofNat 64 (8 * (64 + m.length)))) := by
    unfold pad
    rw [hz, List.length_append, hp]
    simp only [List.append_assoc]
  rw [sha1Chain, hl, hpad]
  exact foldBlocks_two compress _ _ _ hp (by simp; omega)

theorem joinBytes_xor (a b c d x y z w : Byte) :
    joinBytes (a ^^^ x) (b ^^^ y) (c ^^^ z) (d ^^^ w) = joinBytes a b c d ^^^ joinBytes x y z w := by
  apply BitVec.eq_of_getLsbD_eq
  intro i hi
  simp only [joinBytes, BitVec.getLsbD_xor, BitVec.getLsbD_append]
  split_ifs <;> rfl

theorem word_xor (s : List Byte) (x : Byte) (i : Nat) (h : 4 * i + 3 < s.length) :
    word (s.map (· ^^^ x)) i = word s i ^^^ joinBytes x x x x := by
  have hb : ∀ j < s.length, byteAt (s.map (· ^^^ x)) j = byteAt s j ^^^ x := by
    intro j hj; simp [byteAt, hj]
  unfold word
  rw [hb _ (by omega), hb _ (by omega), hb _ (by omega), hb _ (by omega)]
  exact joinBytes_xor ..

theorem blockWords_xor (s : List Byte) (x : Byte) (h : s.length = 64) :
    blockWords (s.map (· ^^^ x)) = (blockWords s).map (· ^^^ joinBytes x x x x) := by
  simp only [blockWords, List.map_map]
  apply List.map_congr_left
  intro i hi
  have := List.mem_range.mp hi
  exact word_xor s x i (by omega)

theorem be64_eq (c : DWord) : be64 c = be32 (hi32 c) ++ be32 (lo32 c) := by
  conv_lhs => rw [← join64_hi32_lo32 c]
  exact be64_join64 _ _

theorem word_zero_append (w : Word) (s : List Byte) : word (be32 w ++ s) 0 = w := word_be32_append w s

theorem word_succ_append (w : Word) (s : List Byte) (i : Nat) : word (be32 w ++ s) (i + 1) = word s i := by
  have hb : ∀ j, byteAt (be32 w ++ s) (j + 4) = byteAt s j := fun j => rfl
  unfold word
  rw [← hb, ← hb, ← hb, ← hb]
  rfl

theorem map_word_flatMap (ws : List Word) : (List.range ws.length).map (word (ws.flatMap be32)) = ws := by
  induction ws with
  | nil => rfl
  | cons w ws ih =>
    rw [List.length_cons, List.range_succ_eq_map, List.map_cons, List.map_map, List.flatMap_cons, word_zero_append]
    exact congrArg (w :: ·) ih

/-- A block written as 16 words consists of those words. -/
theorem blockWords_flatMap (ws : List Word) (h : ws.length = 16) : blockWords (ws.flatMap be32) = ws := by
  conv_rhs => rw [← map_word_flatMap ws, h]
  rfl

/-! ### The message schedule -/

theorem growSchedule_length (n : Nat) (l : List Word) : (growSchedule n l).length = n + l.length := by
  induction n generalizing l with
  | zero => simp [growSchedule]
  | succ n ih => rw [growSchedule, ih, List.length_cons]; omega

/-- Growing a schedule puts new words in front and keeps the words it had. -/
theorem growSchedule_suffix (n : Nat) (l : List Word) : ∃ new : List Word, growSchedule n l = new ++ l := by
  induction n generalizing l with
  | zero => exact ⟨[], rfl⟩
  | succ n ih =>
    obtain ⟨new, h⟩ := ih (nextScheduleWord l :: l)
    exact ⟨new ++ [nextScheduleWord l], by rw [growSchedule, h, List.append_assoc]; rfl⟩

theorem schedule_length (block : List Word) (h : block.length = 16) : (schedule block).length = 80 := by
  simp [schedule, growSchedule_length, h]

end Sys2Proof.Machine
end

