-- ==== Sys2Proof/Laws/PerInstr.lean ====
section
/-! SUPPORT. The statement made of every command, one lemma per constructor (LAWS.json). -/

namespace Sys2Proof.Laws.EncodingFields

/-- A command is well-formed, and the fields of its word are `ZERO` = 0 and its opcode, which selects it (R49, R50). -/
def Statement (i : Instr) : Prop :=
  i.wellFormed = true ∧ zeroField (encode i) = 0#24 ∧ opcodeField (encode i) = opcodeOf i
    ∧ commandOf (opcodeOf i) = some i

theorem hotp : Statement .hotp := ⟨rfl, by decide, by decide, by decide⟩

theorem totp : Statement .totp := ⟨rfl, by decide, by decide, by decide⟩

theorem verify : Statement .verify := ⟨rfl, by decide, by decide, by decide⟩

theorem clear : Statement .clear := ⟨rfl, by decide, by decide, by decide⟩

end Sys2Proof.Laws.EncodingFields
end

