-- ==== Sys2Proof/Laws/Step.lean ====
section
/-! SUPPORT. One step is the service of the next event. -/

namespace Sys2Proof.Machine

theorem nextEvent_nil (s : State) (h : s.inputs = []) : nextEvent s = (.engine, s) := by rw [nextEvent, h]

theorem nextEvent_cons (s : State) (e : Event) (rest : List Event) (h : s.inputs = e :: rest) :
    nextEvent s = (e, { s with inputs := rest }) := by rw [nextEvent, h]

theorem step_nil (s : State) (h : s.inputs = []) : step s = serve .engine s := by rw [step, nextEvent_nil s h]

theorem step_cons (s : State) (e : Event) (rest : List Event) (h : s.inputs = e :: rest) :
    step s = serve e { s with inputs := rest } := by rw [step, nextEvent_cons s e rest h]

/-- Taking an event from the list changes nothing but the list. -/
theorem nextEvent_state (s : State) : (nextEvent s).2 = { s with inputs := s.inputs.tail } := by
  cases h : s.inputs with
  | nil =>
    rw [nextEvent_nil s h]
    exact congrArg (fun l => { s with inputs := l }) h
  | cons e rest => rw [nextEvent_cons s e rest h, List.tail_cons]

/-- Everything a step can do (R93): the next event is served in one of the ways of `Served`. -/
theorem step_served {s t : State} (h : step s = .next t) :
    Served (nextEvent s).1 { s with inputs := s.inputs.tail } t := by
  rw [← nextEvent_state]
  exact serve_served h

/-- A run of one step more is that step, then the run. -/
theorem core_run_succ (M : Host.Core) {s t : M.State} {k : Nat} (h : M.step s = .next t) : M.run (k + 1) s = M.run k t := by
  rw [Host.Core.run, h]

end Sys2Proof.Machine
end

