-- ==== Sys2Proof/Laws/Truncation.lean ====
section
/-! SUPPORT. The truncation pipeline: where the offset and the truncated value come from, that a rendered code is six
decimal digits, and that the two string registers hold it. -/

namespace Sys2Proof.Machine

theorem and_low (x : Byte) : (x &&& 0x0F#8).toNat = x.toNat % 16 := by
  rw [BitVec.toNat_and]; exact Nat.and_two_pow_sub_one_eq_mod x.toNat 4

theorem and_7f (x : Byte) : (x &&& 0x7F#8).toNat = x.toNat % 128 := by
  rw [BitVec.toNat_and]; exact Nat.and_two_pow_sub_one_eq_mod x.toNat 7

theorem and_ff (x : Byte) : x &&& 0xFF#8 = x := by
  apply BitVec.eq_of_toNat_eq
  have := x.isLt
  rw [BitVec.toNat_and, show (0xFF#8).toNat = 2 ^ 8 - 1 from rfl, Nat.and_two_pow_sub_one_eq_mod]
  omega

/-- "The left shifts by 24, 16 and 8 place bytes in disjoint bit ranges" (R78). -/
theorem shifted_bytes_join (a b c d : Byte) :
    ((a.setWidth 32 <<< 24) ||| (b.setWidth 32 <<< 16) ||| (c.setWidth 32 <<< 8) ||| d.setWidth 32 : Word)
      = joinBytes a b c d := by
  apply BitVec.eq_of_getLsbD_eq
  intro i hi
  simp only [joinBytes, BitVec.getLsbD_or, BitVec.getLsbD_shiftLeft, BitVec.getLsbD_setWidth, BitVec.getLsbD_append]
  rcases Nat.lt_or_ge i 8 with h1 | h1
  · simp [h1, hi, show i < 24 by omega, show i < 16 by omega]
  · have hd : d.getLsbD i = false := BitVec.getLsbD_of_ge d i h1
    rcases Nat.lt_or_ge i 16 with h2 | h2
    · simp [hi, hd, show ¬ i < 8 by omega, h2, show i < 24 by omega, show i - 8 < 8 by omega, show i - 8 < 32 by omega]
    · have hc : c.getLsbD (i - 8) = false := BitVec.getLsbD_of_ge c _ (by omega)
      rcases Nat.lt_or_ge i 24 with h3 | h3
      · simp [hi, hd, hc, show ¬ i < 8 by omega, show ¬ i < 16 by omega, h3, show ¬ i - 8 < 8 by omega,
          show i - 8 - 8 < 8 by omega, show i - 16 = i - 8 - 8 by omega, show i - 8 - 8 < 32 by omega]
      · have hb : b.getLsbD (i - 16) = false := BitVec.getLsbD_of_ge b _ (by omega)
        simp [hi, hd, hc, hb, show ¬ i < 8 by omega, show ¬ i < 16 by omega, show ¬ i < 24 by omega,
          show ¬ i - 8 < 8 by omega, show ¬ i - 8 - 8 < 8 by omega, show i - 24 = i - 8 - 8 - 8 by omega,
          show i - 8 - 8 - 8 < 32 by omega]

theorem dtOffset_eq (d : List Byte) : dtOffset d = (byteAt d 19).toNat % 16 := by rw [dtOffset, and_low]

theorem dtTrunc_eq (d : List Byte) :
    dtTrunc d = joinBytes (byteAt d (dtOffset d) &&& 0x7F#8) (byteAt d (dtOffset d + 1)) (byteAt d (dtOffset d + 2))
      (byteAt d (dtOffset d + 3)) := by
  rw [dtTrunc, and_ff, and_ff, and_ff, shifted_bytes_join]

@[simp] theorem dec6_length (code : Nat) : (dec6 code).length = 6 := by simp [dec6, Config.digits]

theorem digit_toNat (n : Nat) (h : n < 10) : (0x30#8 + BitVec.ofNat 8 n).toNat = 48 + n := by
  simp [BitVec.toNat_add]
  omega

theorem dec6_digit (code : Nat) : ∀ b ∈ dec6 code, 0x30 ≤ b.toNat ∧ b.toNat ≤ 0x39 := by
  intro b hb
  simp only [dec6, List.mem_map] at hb
  obtain ⟨i, _, rfl⟩ := hb
  rw [digit_toNat _ (by omega)]
  omega

theorem str_readback (s : List Byte) (h : s.length = 6) : be32 (str0 s) ++ (be32 (str1 s)).take 2 = s := by
  match s, h with
  | [a, b, c, d, e, f], _ =>
    simp only [str0, str1, be32_joinBytes]; rfl

theorem str1_low (s : List Byte) : (str1 s).setWidth 16 = 0#16 := by
  apply BitVec.eq_of_toNat_eq
  rw [BitVec.toNat_setWidth, str1, toNat_joinBytes]
  simp
  omega

@[simp] theorem hotp_digest_length (k0 : List Byte) (c : DWord) : (hotp k0 c).digest.length = 20 := rfl

@[simp] theorem hotp_str_length (k0 : List Byte) (c : DWord) : (hotp k0 c).str.length = 6 := dec6_length _

theorem codeOf_lt (truncated : Word) : codeOf truncated < 1000000 := Nat.mod_lt _ (by decide)

/-! ### The result registers -/

theorem word_bytes (d : Chain) (i : Nat) (h : i < 5) : word d.bytes i = d.words.getD i 0#32 := by
  have hb : d.bytes = d.words.flatMap be32 := by simp [Chain.bytes, Chain.words]
  have h2 := congrArg (fun l => l.getD i 0#32) (map_word_flatMap d.words)
  have hl : i < d.words.length := by simpa [Chain.words] using h
  rw [hb]
  simpa [hl] using h2

theorem truncate_digestBytes (m : List Byte) :
    (truncate m).registers.digestBytes = [word m 0, word m 1, word m 2, word m 3, word m 4].flatMap be32 := rfl

/-- A digest is read back from its five registers (R57). -/
theorem digestBytes_registers (d : Chain) : (truncate d.bytes).registers.digestBytes = d.bytes := by
  have h : [word d.bytes 0, word d.bytes 1, word d.bytes 2, word d.bytes 3, word d.bytes 4] = d.words := by
    rw [word_bytes d 0 (by decide), word_bytes d 1 (by decide), word_bytes d 2 (by decide), word_bytes d 3 (by decide),
      word_bytes d 4 (by decide)]
    rfl
  rw [truncate_digestBytes, h]
  simp [Chain.bytes, Chain.words]

theorem hotp_registers_digestBytes (k0 : List Byte) (c : DWord) :
    (hotp k0 c).registers.digestBytes = hmacSha1 k0 (be64 c) := digestBytes_registers _

theorem dtTrunc_top (d : List Byte) : (dtTrunc d).getLsbD 31 = false := by
  rw [dtTrunc_eq, ← Bool.not_eq_true, ← BitVec.msb_eq_getLsbD_last, BitVec.msb_eq_decide, decide_eq_true_iff,
    toNat_joinBytes, and_7f]
  omega

end Sys2Proof.Machine
end

