-- ==== Sys2Proof/Laws/Window.lean ====
section
/-! SUPPORT. The window: its candidates, the comparator as an equation of registers, and the OR over the candidates. -/

namespace Sys2Proof.Machine

theorem cteq6_iff (len tok0 tok1 s0 s1 : Word) :
    cteq6 len tok0 tok1 s0 s1 = true ↔ len = 6#32 ∧ tok0 = s0 ∧ (tok1 ^^^ s1) &&& 0xFFFF0000#32 = 0#32 := by
  simp only [cteq6, beq_iff_eq, BitVec.or_eq_zero_iff, BitVec.xor_eq_zero_iff, and_assoc]

theorem candidateAt_inRange (base : DWord) (w j : Nat) :
    (candidateAt base w j).inRange = true ↔
      0 ≤ (candidateAt base w j).cand ∧ (candidateAt base w j).cand < 18446744073709551616 := by
  simp [candidateAt]

@[simp] theorem candidates_length (base : DWord) (w : Nat) : (candidates base w).length = 2 * w + 1 := by simp [candidates]

theorem mem_candidates (base : DWord) (w : Nat) (c : Candidate) :
    c ∈ candidates base w ↔ ∃ j, j ≤ 2 * w ∧ c = candidateAt base w j := by
  simp only [candidates, List.mem_map, List.mem_range]
  constructor
  · rintro ⟨j, h, rfl⟩; exact ⟨j, by omega, rfl⟩
  · rintro ⟨j, h, rfl⟩; exact ⟨j, by omega, rfl⟩

theorem foldl_or_eq_any {α : Type} (p : α → Bool) (l : List α) (b : Bool) :
    l.foldl (fun m c => m || p c) b = (b || l.any p) := by
  induction l generalizing b with
  | nil => simp
  | cons x l ih => rw [List.foldl_cons, ih, List.any_cons, Bool.or_assoc]

theorem windowMatch_eq_any (k0 : List Byte) (base : DWord) (w : Nat) (t : Token) :
    windowMatch k0 base w t = (candidates base w).any (candidateMatches k0 t) := by
  rw [windowMatch, foldl_or_eq_any, Bool.false_or]

end Sys2Proof.Machine
end

