-- ==== Sys2Proof/Machine/HostOps.lean ====
section
/-! DEFINITION. The host's notation: the single transactions and the pseudo-operations of spec/30_encoding.md R58 to R60,
as the lists of port events they expand to. The branches of a host program (`IF ... GOTO`) run on the host and are no part
of the block (R59); where an expansion holds one, the outcome is an argument. -/

namespace Sys2Proof.Machine

/-- `RD <reg>` (R59). -/
def rd (r : Reg) : Event := .read r.byteOffset Config.accessBytes

/-- `WR <reg>, <value>` (R59). -/
def wr (r : Reg) (v : Word) : Event := .write r.byteOffset Config.accessBytes v

/-- `CMD <mnemonic>` (R59). -/
def cmd (i : Instr) : Event := wr .cmd (encode i)

/-- `LD64 TIME, v` (R60). -/
def ldTime (v : DWord) : List Event := [wr (.operand .timeHi) (hi32 v), wr (.operand .timeLo) (lo32 v)]

/-- `LD64 COUNTER, v` (R60). -/
def ldCounter (v : DWord) : List Event := [wr (.operand .counterHi) (hi32 v), wr (.operand .counterLo) (lo32 v)]

/-- `LDKEY K`, K of 1 to 64 bytes: the length and the words it covers, padded with zeros (R55, R60). -/
def ldKey (k : List Byte) : List Event :=
  wr (.operand .keyLen) (BitVec.ofNat 32 k.length)
    :: (List.range ((k.length + 3) / 4)).map fun w => wr (.operand (.key (Fin.ofNat 16 w))) (word k w)

/-- The byte written for a character: its code, or 0xFF for a code that does not fit 8 bits (R56). -/
def charByte (code : Nat) : Byte := if code ≤ 0xFF then BitVec.ofNat 8 code else 0xFF#8

/-- `LDTOK T`, T given by its character codes: the length, at most 2^32 - 1, and the first six characters, bytes beyond
the end written as 0x00 (R56, R60). -/
def ldTok (t : List Nat) : List Event :=
  [wr (.operand .tokLen) (BitVec.ofNat 32 (min t.length 4294967295)),
   wr (.operand .token0) (str0 (t.map charByte)),
   wr (.operand .token1) (str1 (t.map charByte))]

/-- `WAIT`, polled `n` times: the host reads `STATUS` until `BUSY` is 0 (R60). -/
def wait (n : Nat) : List Event := List.replicate n (rd .status)

/-- `W1C <flags>`: `DONE` = 0x2, `ERROR` = 0x4, `WRIGN` = 0x10 (R60). -/
def w1c (done error wrIgn : Bool) : Event :=
  wr .status ((bitWord done <<< 1) ||| (bitWord error <<< 2) ||| (bitWord wrIgn <<< 4))

/-- `SRST` (R60). -/
def srst : Event := wr .ctrl 0x80000000#32

/-- The end of `computeCode` and `generateOTP`: `RD STATUS`, then the code string if `ERROR` was 0 (R60). -/
def readCode (error : Bool) : List Event :=
  rd .status :: if error then [] else [rd (.result .codeStr0), rd (.result .codeStr1)]

/-- `computeCode(K, c)` (R60). -/
def computeCode (k : List Byte) (c : DWord) (polls : Nat) (error : Bool) : List Event :=
  ldKey k ++ ldCounter c ++ [cmd .hotp] ++ wait polls ++ readCode error

/-- `generateOTP(K, step, now)` (R60). -/
def generateOTP (k : List Byte) (timeStep : Word) (now : DWord) (polls : Nat) (error : Bool) : List Event :=
  ldKey k ++ [wr (.operand .timeStep) timeStep] ++ ldTime now ++ [cmd .totp] ++ wait polls ++ readCode error

/-- `verifyOTP(K, T, window, step, now)`; the verdict is bit 3 of the last value read if its bit 2 is 0 (R60). -/
def verifyOTP (k : List Byte) (t : List Nat) (window timeStep : Word) (now : DWord) (polls : Nat) : List Event :=
  ldKey k ++ ldTok t ++ [wr (.operand .window) window, wr (.operand .timeStep) timeStep] ++ ldTime now
    ++ [cmd .verify] ++ wait polls ++ [rd .status]

/-- The result of `verifyOTP` from the status value read: `MATCH`, or the error (R57, R60). -/
def verdict (status : Word) : Except (BitVec 4) Bool :=
  if status.getLsbD 2 then .error (status.extractLsb' 8 4) else .ok (status.getLsbD 3)

end Sys2Proof.Machine
end

