-- ==== Sys2Proof/Tests/Slice0.lean ====
section
/-! SUPPORT. Tests. Expected values are the spec's (spec/95_test_vectors.md, by section) or written out by hand from the
rule named. The second half shows, for each statement with hypotheses, operands and states that meet them. -/

namespace Sys2Proof.Tests

open Sys2Proof.Machine

/-! ## Small states -/

/-- The key words of the secret "12345678901234567890" (95_test_vectors.md, K20). -/
def keyK20 : Vector Word 16 :=
  #v[0x31323334#32, 0x35363738#32, 0x39303132#32, 0x33343536#32, 0x37383930#32, 0, 0, 0, 0, 0, 0, 0, 0, 0, 0, 0]

/-- The padded key of K20. -/
def k20 : List Byte :=
  ([0x31323334#32, 0x35363738#32, 0x39303132#32, 0x33343536#32, 0x37383930#32].flatMap be32) ++ List.replicate 44 0#8

/-- The reset operands with K20 loaded. -/
def withK20 : Operands := { Operands.reset with keyLen := 20#32, key := keyK20 }

/-- An idle block with the operands `o`. -/
def idleWith (o : Operands) : State := { State.reset with ops := o }

/-- A block with command `i` in flight over the operands `o`. -/
def flight (i : Instr) (o : Operands) : State :=
  { State.reset with seq := .run i, ops := o, status := { Status.reset with lastOp := opcodeOf i } }

/-- The next state, where there is one. -/
def next (r : Result) : Option State :=
  match r with
  | .next t => some t
  | .fault _ => none
  | .refused _ => none

/-- `STATUS` as read right after the word `w` is written to `CMD` of an idle block with the operands `o`. -/
def statusAfter (o : Operands) (w : Word) : Option Word := (next (hostWrite 0x04 4 w (idleWith o))).map statusWord

/-! ## Decoding (R49, R50: `ZERO[31:8] || OPCODE[7:0]`) -/

theorem test_decode_hotp : decode 0b00000000_00000000_00000000_00000001#32 = .ok .hotp := by decide
theorem test_decode_totp : decode 0b00000000_00000000_00000000_00000010#32 = .ok .totp := by decide
theorem test_decode_verify : decode 0b00000000_00000000_00000000_00000011#32 = .ok .verify := by decide
theorem test_decode_clear : decode 0b00000000_00000000_00000000_00000100#32 = .ok .clear := by decide

/-- Smoke test of the decoder's two checks: no term of `Instr` is ill-formed, a word can be (R51). -/
theorem test_zero_field_refused : decode 0b10000000_00000000_00000000_00000001#32 = .error (.zeroFieldSet 0x800000#24) := by
  decide
theorem test_reserved_opcode_refused : decode 0b00000000_00000000_00000000_11111111#32 = .error (.reservedOpcode 0xFF#8) := by
  decide
theorem test_every_command_is_wellFormed : [Instr.hotp, .totp, .verify, .clear].all Instr.wellFormed = true := by decide
theorem test_table_word : decodeTableWord 32 0x00000003 = some .verify ∧ decodeTableWord 40 0x00000003 = none := by decide

/-- A placed word runs in the very next step, as the first after reset: `CLEAR` needs no key (section 2.6). -/
theorem test_placed_word_runs :
    (next (step (State.reset.withFetchWord 32 0x00000004))).map (·.seq) = some (.run .clear) := by decide

/-! ## The pure functions -/

/-- Section 2.1. -/
theorem test_be64 : be64 0x0123456789ABCDEF#64 = [0x01#8, 0x23#8, 0x45#8, 0x67#8, 0x89#8, 0xAB#8, 0xCD#8, 0xEF#8] := by
  decide

/-- Section 2.2: round 0 of "abc". -/
theorem test_sha1_round : sha1Round 0 0x61626380#32 sha1Init
    = ⟨0x0116fc33#32, 0x67452301#32, 0x7bf36ae2#32, 0x98badcfe#32, 0x10325476#32⟩ := by decide

/-- Section 2.2: the digest of "abc". -/
theorem test_sha1_abc : sha1Chain [0x61#8, 0x62#8, 0x63#8]
    = ⟨0xa9993e36#32, 0x4706816a#32, 0xba3e2571#32, 0x7850c26c#32, 0x9cd0d89d#32⟩ := by decide +kernel

/-- Section 2.3, hand-made digest 00 x 16, 12 34 56, 0F: offset 15, truncated 1193046, code 193046. -/
theorem test_truncation :
    let r := truncate (List.replicate 16 0x00#8 ++ [0x12#8, 0x34#8, 0x56#8, 0x0F#8])
    r.offset = 15 ∧ r.truncated = 0x00123456#32 ∧ r.code = 193046 := by decide

/-- Section 2.3, counter 0x2C: code 152 is the string "000152". -/
theorem test_dec6 : dec6 152 = [0x30#8, 0x30#8, 0x30#8, 0x31#8, 0x35#8, 0x32#8] := by decide

/-- Section 2.4: the largest time, with the two extreme steps. -/
theorem test_base_counter : baseCounter 0xFFFFFFFFFFFFFFFF#64 1#32 = 0xFFFFFFFFFFFFFFFF#64
    ∧ baseCounter 0xFFFFFFFFFFFFFFFF#64 0x7FFFFFFF#32 = 0x0000000200000004#64 := by decide

/-- Section 2.5, rows 11 and 14: -1 and 2^64 are masked, not wrapped. -/
theorem test_candidates_at_the_ends : (candidates 0#64 1).map (·.inRange) = [false, true, true]
    ∧ (candidates 0xFFFFFFFFFFFFFFFF#64 1).map (·.inRange) = [true, true, false] := by decide

/-- Section 2.5, `CTEQ6` alone. -/
theorem test_cteq6 : cteq6 6#32 0x32383730#32 0x38320000#32 0x32383730#32 0x38320000#32 = true
    ∧ cteq6 6#32 0x32383730#32 0x38330000#32 0x32383730#32 0x38320000#32 = false
    ∧ cteq6 7#32 0x32383730#32 0x38320000#32 0x32383730#32 0x38320000#32 = false := by decide

/-! ## The commands -/

/-- Section 2.3, counter 0x37: the largest offset, the mask changes the value, and the string. -/
theorem test_hotp : (next (exec .hotp (flight .hotp { withK20 with counterLo := 0x37#32 }))).map
      (fun t => (t.res.digest, t.res.offset, t.res.trunc, t.res.codeVal, t.res.codeStr0, t.res.codeStr1))
    = some (#v[0x387192e1#32, 0x86642245#32, 0x308ea94b#32, 0xc80349fa#32, 0x288d8a7f#32], 15#32, 0x7A288D8A#32,
        478026#32, 0x34373830#32, 0x32360000#32) := by decide +kernel

/-- Section 2.6: no key, a key too long, and no look at `TIMESTEP`. -/
theorem test_hotp_acceptance : statusAfter Operands.reset 0x00000001#32 = some 0x00010204#32
    ∧ statusAfter { withK20 with keyLen := 65#32 } 0x00000001#32 = some 0x00010204#32
    ∧ statusAfter { withK20 with timeStep := 0#32 } 0x00000001#32 = some 0x00010001#32 := by decide

/-- Section 2.4: the largest time and step, and `COUNTER` after. -/
theorem test_totp : (next (exec .totp (flight .totp
      { withK20 with timeHi := 0xFFFFFFFF#32, timeLo := 0xFFFFFFFF#32, timeStep := 0x7FFFFFFF#32 }))).map
        (fun t => (t.ops.counterHi, t.ops.counterLo, t.res.offset, t.res.trunc, t.res.codeVal))
    = some (0x00000002#32, 0x00000004#32, 8#32, 0x72BE2252#32, 63250#32) := by decide +kernel

/-- Section 2.6: `TIMESTEP` 0, and `WINDOW` not looked at. -/
theorem test_totp_acceptance : statusAfter { withK20 with timeStep := 0#32 } 0x00000002#32 = some 0x00020104#32
    ∧ statusAfter { withK20 with window := 256#32 } 0x00000002#32 = some 0x00020001#32 := by decide

/-- The operands of section 2.5, row 9. -/
def row9 : Operands :=
  { withK20 with timeLo := 59#32, window := 0#32, tokLen := 6#32, token0 := 0x32383730#32, token1 := 0x38320000#32 }

/-- Section 2.5, row 9: `STATUS` and `COUNTER`, and no result made visible. -/
theorem test_verify : (next (exec .verify (flight .verify row9))).map
      (fun t => (statusWord t, t.ops.counterHi, t.ops.counterLo, t.res == Results.zero))
    = some (0x0003000A#32, 0#32, 1#32, true) := by decide +kernel

/-- Section 2.6: a negative step, a window too wide, and the argument before the secret. -/
theorem test_verify_acceptance : statusAfter { withK20 with timeStep := 0x80000000#32 } 0x00000003#32 = some 0x00030104#32
    ∧ statusAfter { withK20 with window := 256#32 } 0x00000003#32 = some 0x00030104#32
    ∧ statusAfter { Operands.reset with window := 256#32 } 0x00000003#32 = some 0x00030104#32 := by decide

/-- R91: what `CLEAR` zeroes and what it keeps. -/
theorem test_clear : (next (exec .clear (flight .clear { row9 with timeStep := 60#32 }))).map
      (fun t => (t.ops.key == Vector.replicate 16 0#32, t.ops.keyLen, t.ops.token1, t.ops.timeLo, t.ops.timeStep, statusWord t))
    = some (true, 0#32, 0#32, 0#32, 60#32, 0x00040002#32) := by decide

/-- Section 2.6: `CLEAR` needs no key. -/
theorem test_clear_acceptance : statusAfter Operands.reset 0x00000004#32 = some 0x00040001#32 := by decide

/-- Section 2.6: the words of no command. -/
theorem test_illegal_words : statusAfter Operands.reset 0x00000105#32 = some 0x00050304#32
    ∧ statusAfter Operands.reset 0x00000000#32 = some 0x00000304#32
    ∧ statusAfter Operands.reset 0x80000001#32 = some 0x00010304#32 := by decide

/-! ## The port -/

/-- Program P5: a write to a locked register during `TOTP` only sets `WRIGN`; the key reads 0. -/
theorem test_locked_write : (next (hostWrite 0x40 4 0xDEADBEEF#32 (flight .totp withK20))).map statusWord = some 0x00020011#32
    ∧ (next (hostRead 0x40 4 (flight .totp withK20))).map (·.returned) = some [0x00000000#32] := by decide

/-- R98: `DONE` and `WRIGN` are cleared by 1s, `MATCH` is not. -/
theorem test_write_one_to_clear :
    (clearFlags 0x0000001A#32 { Status.reset with done := true, matched := true, wrIgn := true, lastOp := 0x03#8 })
      = { Status.reset with matched := true, lastOp := 0x03#8 } := by decide

/-- R99, program P4: bit 31 of `CTRL` resets the block and no bit is stored. -/
theorem test_soft_reset : (next (hostWrite 0x0C 4 0x80000003#32 (flight .totp row9))).map
    (fun t => (t.seq, t.ctrl, t.ops == Operands.reset)) = some (.idle, Ctrl.reset, true) := by decide

/-- R27, R96: the low half of `TOKEN1` is not implemented. -/
theorem test_token1 : (next (hostWrite 0x34 4 0x38320ABC#32 State.reset)).map (·.ops.token1) = some 0x38320000#32 := by decide

/-- R34, R43: a byte access, a misaligned one, and one outside the block. -/
theorem test_stops : next (hostRead 0x08 1 State.reset) = none ∧ next (hostWrite 0x0A 4 0#32 State.reset) = none
    ∧ next (hostRead 0x100 4 State.reset) = none ∧ (next (hostRead 0xFC 4 State.reset)).isSome = true := by decide

/-- R55, R60: `LDKEY` of the four bytes 4A 65 66 65 (section 2.3, other keys). -/
theorem test_ldKey : ldKey [0x4A#8, 0x65#8, 0x66#8, 0x65#8] = [.write 0x28 4 4#32, .write 0x40 4 0x4A656665#32] := by decide

/-- R56, R60: `LDTOK` of "28708" (section 2.5, malformed tokens). -/
theorem test_ldTok : ldTok [0x32, 0x38, 0x37, 0x30, 0x38]
    = [.write 0x2C 4 5#32, .write 0x30 4 0x32383730#32, .write 0x34 4 0x38000000#32] := by decide

/-! ## Witnesses: what meets the hypotheses of the statements, one theorem for each -/

/-- `next` finds the state an outcome holds. -/
theorem eq_next_of_next {r : Result} {t : State} (h : next r = some t) : r = .next t := by
  cases r <;> cases h
  rfl

theorem exists_next_of_isSome {r : Result} (h : (next r).isSome = true) : ∃ t, r = .next t :=
  ⟨(next r).get h, eq_next_of_next (Option.some_get h).symm⟩

/-- `DecodeOfEncodeIsTheCommand`. -/
theorem test_witness_decode_of_encode : Instr.hotp.wellFormed = true ∧ Instr.clear.wellFormed = true := by decide

/-- `DecodeAgreesWithTheOpcodeMap`: a word that decodes, one that does not, and a row that covers. -/
theorem test_witness_opcode_map : decode 4#32 = .ok .clear ∧ decode 5#32 ≠ .ok .clear
    ∧ ∃ r ∈ opcodeTable, r.instr = .clear ∧ r.covers 4#32 = true := by decide

/-- `IllegalWordRaisesIllegalCommand`: the least and the greatest word of no command, and one with `ZERO` set. -/
theorem test_witness_illegal_word : [0x00000000#32, 0x00000005#32, 0x00000101#32, 0xFFFFFFFF#32].all (fun w =>
    decide ((idleWith row9).seq = .idle
      ∧ w ≠ 0x00000001#32 ∧ w ≠ 0x00000002#32 ∧ w ≠ 0x00000003#32 ∧ w ≠ 0x00000004#32)) = true := by decide

/-- `OffsetMapIsTheRegisterMap`, `ReadsReturnTheTable`: offsets at the edges of every range. -/
theorem test_witness_offsets : ∀ off ∈ [0x00, 0x34, 0x38, 0x3C, 0x40, 0x7C, 0x80, 0x90, 0x94, 0xA4, 0xA8, 0xFC],
    off % 4 = 0 ∧ off < 256 := by decide

/-- `StepRunsTheDecodedCommand`. -/
theorem test_witness_step_decoded :
    let s := { idleWith row9 with inputs := [.write 0x04 4 0x00000003#32, .engine] }
    s.rstN = true ∧ s.seq = .idle ∧ s.inputs = .write 0x04 4 0x00000003#32 :: [.engine]
      ∧ decode 0x00000003#32 = .ok .verify ∧ Instr.verify.wellFormed = true := by decide

/-- `EngineStepRunsTheCommandInFlight`, both clauses. -/
theorem test_witness_engine_step :
    (flight .totp withK20).rstN = true ∧ (flight .totp withK20).seq = .run .totp ∧ (flight .totp withK20).inputs = []
      ∧ ({ flight .totp withK20 with inputs := [.engine, .rstLow] } : State).inputs = .engine :: [.rstLow] := by decide

/-- `PendingAccessIsServedNext`, both clauses. -/
theorem test_witness_pending_access :
    ({ flight .totp withK20 with inputs := [.read 0x08 4] } : State).inputs = .read 0x08 4 :: []
      ∧ ({ flight .totp withK20 with inputs := [.write 0x08 4 2#32] } : State).inputs = .write 0x08 4 2#32 :: []
      ∧ (flight .totp withK20).rstN = true := by decide

/-- `CommandWriteIsAcceptance`, `ErrorsAreReportedByPriority`: an idle block and a busy one. -/
theorem test_witness_acceptance : (idleWith row9).seq = .idle ∧ (flight .clear row9).seq ≠ .idle := by decide

/-- `ErrorEntryTouchesNothingElse`, and the third clause of `ErrorReturnAndReissue`. -/
theorem test_witness_error_entry : ∃ t, State.reset.seq = .idle ∧ hostWrite 0x04 4 0x00000001#32 State.reset = .next t
    ∧ t.status.error = true := ⟨_, rfl, rfl, rfl⟩

/-- `ErrorReturnAndReissue`, `CtrlWriteStoresOrResets`: the bits written, and an idle block with another error set. -/
theorem test_witness_error_return : (0x00000004#32).getLsbD 2 = true ∧ (0x80000000#32).getLsbD 31 = true
    ∧ (0x7FFFFFFF#32).getLsbD 31 = false
    ∧ ({ State.reset with status := { Status.reset with error := true, errCode := 2#4 } } : State).seq = .idle := by decide

/-- `HotpFollowsItsRule`: the edges of `KEYLEN`, at rest and in flight. -/
theorem test_witness_hotp :
    (idleWith { withK20 with keyLen := 1#32 }).ops.KeyLegal ∧ (flight .hotp { withK20 with keyLen := 64#32 }).ops.KeyLegal
      ∧ ¬ (idleWith Operands.reset).ops.KeyLegal ∧ ¬ (idleWith { withK20 with keyLen := 65#32 }).ops.KeyLegal
      ∧ (idleWith withK20).seq = .idle ∧ (flight .hotp withK20).seq = .run .hotp := by
  unfold Operands.KeyLegal
  decide

/-- `TotpFollowsItsRule`: the edges of `TIMESTEP`. -/
theorem test_witness_totp :
    ({ withK20 with timeStep := 1#32 } : Operands).StepLegal ∧ ({ withK20 with timeStep := 0x7FFFFFFF#32 } : Operands).StepLegal
      ∧ ¬ ({ withK20 with timeStep := 0#32 } : Operands).StepLegal
      ∧ ¬ ({ withK20 with timeStep := 0x80000000#32 } : Operands).StepLegal
      ∧ withK20.KeyLegal ∧ Operands.reset.StepLegal ∧ ¬ Operands.reset.KeyLegal
      ∧ (idleWith withK20).seq = .idle ∧ (flight .totp withK20).seq = .run .totp := by
  unfold Operands.StepLegal Operands.KeyLegal
  decide

/-- `VerifyFollowsItsRule`: the edges of `WINDOW`. -/
theorem test_witness_verify :
    ({ withK20 with window := 0#32 } : Operands).WindowLegal ∧ ({ withK20 with window := 255#32 } : Operands).WindowLegal
      ∧ ¬ (withK20.StepLegal ∧ ({ withK20 with window := 256#32 } : Operands).WindowLegal)
      ∧ withK20.StepLegal ∧ withK20.KeyLegal
      ∧ Operands.reset.StepLegal ∧ Operands.reset.WindowLegal ∧ ¬ Operands.reset.KeyLegal
      ∧ (idleWith withK20).seq = .idle ∧ (flight .verify row9).seq = .run .verify := by
  unfold Operands.StepLegal Operands.WindowLegal Operands.KeyLegal
  decide

/-- `ClearFollowsItsRule`. -/
theorem test_witness_clear : (idleWith Operands.reset).seq = .idle ∧ (flight .clear row9).seq = .run .clear := by decide

/-- `CompletionFrame`, `CommandsShareTheirLimits` (first part): every command completes somewhere. -/
theorem test_witness_completion (i : Instr) : ∃ t, (flight i row9).seq = .run i ∧ exec i (flight i row9) = .next t :=
  ⟨_, rfl, exec_run i _ rfl⟩

/-- `CompletionFrame`: registers that meet the premises of its first clause, for each command. -/
theorem test_witness_frame_registers : Reg.ctrl ≠ .status
    ∧ (∀ q : ResultReg, Reg.operand .timeStep = .result q → Instr.hotp = .verify ∨ Instr.hotp = .clear)
    ∧ (∀ q : ResultReg, Reg.result .trunc = .result q → Instr.verify = .verify ∨ Instr.verify = .clear)
    ∧ (Reg.operand .counterHi = .operand .counterHi ∨ Reg.operand .counterHi = .operand .counterLo → Instr.hotp = .hotp)
    ∧ (∀ q : OperandReg, Reg.operand .window = .operand q → q = .timeStep ∨ q = .window) := by
  refine ⟨by decide, ?_, ?_, ?_, ?_⟩
  · intro q h; cases h
  · intro q _; exact .inl rfl
  · intro _; rfl
  · intro q h; cases h; exact .inr rfl

/-- `CommandsShareTheirLimits`, second part: two states that differ in the flags, the results and (for `TOTP`) the
counter. -/
theorem test_witness_limits :
    let s := flight .totp row9
    let t := { flight .totp { row9 with counterLo := 7#32 } with
      status := { s.status with wrIgn := true }, res := { Results.zero with codeVal := 1#32 } }
    s.seq = .run .totp ∧ t.seq = .run .totp
      ∧ t.ops = { s.ops with counterHi := t.ops.counterHi, counterLo := t.ops.counterLo }
      ∧ (Instr.totp = .hotp → t.ops = s.ops) ∧ s ≠ t := by decide

/-- `TotpThenHotpRepeatsTheCode`. -/
theorem test_witness_totp_then_hotp : ∃ t, (flight .totp withK20).seq = .run .totp
    ∧ (flight .totp withK20).ops.Legal .totp ∧ exec .totp (flight .totp withK20) = .next t :=
  ⟨_, rfl, by unfold Operands.Legal Operands.StepLegal Operands.KeyLegal; decide, exec_run _ _ rfl⟩

/-- `MalformedTokenFailsToMatch`: both kinds of malformed token (section 2.5: seven characters; "28708X"). -/
theorem test_witness_malformed_token :
    (∀ o ∈ [{ row9 with tokLen := 7#32 }, { row9 with token1 := 0x38580000#32 }],
      (flight .verify o).seq = .run .verify ∧ (1 ≤ o.timeStep.toNat ∧ o.timeStep.toNat ≤ 2147483647)
        ∧ o.window.toNat ≤ 255 ∧ (1 ≤ o.keyLen.toNat ∧ o.keyLen.toNat ≤ 64))
      ∧ (7#32 : Word) ≠ 6#32
      ∧ ∃ b ∈ be32 0x32383730#32 ++ (be32 0x38580000#32).take 2, ¬ (0x30 ≤ b.toNat ∧ b.toNat ≤ 0x39) := by decide

/-- `VerifyAcceptsExactlyTheWindow`, `EngineComputesTheCommands`. -/
theorem test_witness_verify_in_flight : (flight .verify row9).seq = .run .verify ∧ (flight .verify row9).ops.Legal .verify := by
  unfold Operands.Legal Operands.StepLegal Operands.WindowLegal Operands.KeyLegal
  decide

/-- `ScheduleFollowsItsRecurrence`, `HmacIsFourFixedCompressions`, `TruncationIsAMaskedBigEndianRead`,
`ComparatorIsStringEquality`: strings of the lengths asked for, and the edges of the round numbers. -/
theorem test_witness_lengths : (List.replicate 16 0x61626380#32).length = 16 ∧ k20.length = 64
    ∧ (List.replicate 20 0xFF#8).length = 20 ∧ (dec6 287082).length = 6 ∧ (16 : Nat) ≤ 79 ∧ (79 : Nat) < 80 := by decide

/-- `PaddedKeyMasksTheTail`: the edges of the key, in a buffer whose tail is not zero. -/
theorem test_witness_padded_key :
    let o := { withK20 with key := Vector.replicate 16 0xFFFFFFFF#32 }
    o.KeyLegal ∧ 19 < o.keyLen.toNat ∧ o.keyLen.toNat ≤ 20 ∧ (63 : Nat) < 64 := by
  unfold Operands.KeyLegal
  decide

/-- `SecretLayoutGivesThePaddedKey`: section 2.3, key byte 00 with `KEY0` = 0x00FFFFFF and `KEY1..15` all ones. -/
theorem test_witness_secret_layout :
    let o := { Operands.reset with keyLen := 1#32, key := (Vector.replicate 16 0xFFFFFFFF#32).set 0 0x00FFFFFF#32 }
    1 ≤ [0x00#8].length ∧ [0x00#8].length ≤ 64 ∧ o.keyLen.toNat = [0x00#8].length
      ∧ ∀ i : Fin 1, byteAt (be32 (o.keyWord (i.val / 4))) (i.val % 4) = byteAt [0x00#8] i := by decide

/-- `CommandsIgnoreTheKeyTail`: two key buffers that agree below `KEYLEN` = 1 and nowhere above. -/
theorem test_witness_key_tail :
    let s := flight .hotp { Operands.reset with keyLen := 1#32 }
    let key' := (Vector.replicate 16 0xFFFFFFFF#32).set 0 0x00FFFFFF#32
    s.seq = .run .hotp ∧ (1 ≤ s.ops.keyLen.toNat ∧ s.ops.keyLen.toNat ≤ 64)
      ∧ (∀ j < s.ops.keyLen.toNat, s.ops.keyByte j = Operands.keyByte { s.ops with key := key' } j)
      ∧ s.ops.key ≠ key' := by decide

/-- `CodeStringIsSixDigits`, `BaseCounterIsTheFloor`, `CandidatesAreNotWrapped`: the edges of the ranges. -/
theorem test_witness_ranges : (999999 : Nat) < 1000000 ∧ (1 ≤ (1#32 : Word).toNat ∧ (1#32 : Word).toNat ≤ 2147483647)
    ∧ (1 ≤ (0x7FFFFFFF#32 : Word).toNat ∧ (0x7FFFFFFF#32 : Word).toNat ≤ 2147483647) ∧ (0 : Nat) ≤ 255 ∧ (510 : Nat) ≤ 2 * 255 := by
  decide

/-- The token that spells a code. -/
def tokenOf (str : List Byte) : Token := ⟨6#32, str0 str, str1 str⟩

theorem tokenOf_equals (str : List Byte) : (tokenOf str).equals str = true := by
  rw [Token.equals, cteq6_iff]
  exact ⟨rfl, rfl, by rw [tokenOf, BitVec.xor_self, BitVec.zero_and]⟩

/-- `WindowProperties` (a), (b), (e): the code of a counter at the edge of the window, and an order of evaluation. -/
theorem test_witness_window_match : (tokenOf (hotp k20 2#64).str).equals (hotp k20 2#64).str = true
    ∧ (1#64).toNat ≤ (2#64).toNat + 1 ∧ (2#64).toNat ≤ (1#64).toNat + 1
    ∧ (candidates 1#64 1).reverse.Perm (candidates 1#64 1) :=
  ⟨tokenOf_equals _, by decide, by decide, List.reverse_perm _⟩

/-- `WindowProperties` (c): a token of five characters equals no code. -/
theorem test_witness_window_no_match (c : DWord) : ({ len := 5#32, tok0 := 0#32, tok1 := 0#32 } : Token).equals (hotp k20 c).str = false := by
  rw [Token.equals, ← Bool.not_eq_true, cteq6_iff]
  exact fun h => absurd h.1 (by decide)

/-- `WindowProperties` (d): section 2.5, row 9, and the windows above it. -/
theorem test_witness_window_monotone : 0 ≤ 255 ∧ windowMatch k20 1#64 0 ⟨6#32, 0x32383730#32, 0x38320000#32⟩ = true :=
  ⟨by decide, by decide +kernel⟩

/-- `OperandWriteStoresTheValue` (idle), `LockedWriteOnlySetsWrign` (busy; each range at its edges). -/
theorem test_witness_operand_write : (idleWith row9).seq = .idle ∧ (flight .verify row9).seq ≠ .idle
    ∧ OperandReg.window ≠ .timeStep
    ∧ ∀ off ∈ [0x04, 0x10, 0x34, 0x40, 0x7C], off % 4 = 0
        ∧ (off = 0x04 ∨ (0x10 ≤ off ∧ off ≤ 0x34) ∨ (0x40 ≤ off ∧ off ≤ 0x7C)) := by decide

/-- `ReadOnlyWritesAreIgnored`: each range at its edges. -/
theorem test_witness_read_only : ∀ off ∈ [0x00, 0x38, 0x3C, 0x80, 0xA4, 0xA8, 0xFC], off % 4 = 0
    ∧ (off = 0x00 ∨ off = 0x38 ∨ off = 0x3C ∨ (0x80 ≤ off ∧ off < 256)) := by decide

/-- `OtherAccessesStopByName`: a byte, a misaligned word, and the first word outside. -/
theorem test_witness_other_accesses : ((1 : Nat) ≠ 4 ∨ 0x08 % 4 ≠ 0) ∧ ((4 : Nat) ≠ 4 ∨ 0x0A % 4 ≠ 0)
    ∧ ((4 : Nat) = 4 ∧ 0x100 % 4 = 0 ∧ 256 ≤ 0x100) := by decide

/-- `InterruptFollowsFlagsAndEnables`, `StepKeepsTheInvariants`, `RunEndsIdleOrRefused`: an error shown with its interrupt enabled. -/
theorem test_witness_inv_error : State.Inv { State.reset with
    status := { Status.reset with error := true, errCode := 2#4, lastOp := 0x01#8 }
    ctrl := { ieDone := false, ieError := true } } := by
  constructor <;> first | decide | skip
  · intro i h; cases h

/-- `InterruptFollowsFlagsAndEnables` (third clause), `StepKeepsTheInvariants`: a command in flight, and its step. -/
theorem test_witness_inv_flight : (flight .verify row9).Inv ∧ (flight .verify row9).seq = .run .verify
    ∧ ∃ t, step (flight .verify row9) = .next t := by
  refine ⟨?_, rfl, ?_⟩
  · constructor <;> first | decide | skip
    · intro i h
      cases h
      unfold Operands.Legal Operands.StepLegal Operands.WindowLegal Operands.KeyLegal
      decide
  · exact ⟨_, (step_nil _ rfl).trans (exec_run .verify (flight .verify row9) rfl)⟩

/-- `StepKeepsTheInvariants`: a result shown (section 2.3, counter 1). -/
theorem test_witness_inv_result : State.Inv { idleWith withK20 with
    status := { Status.reset with done := true, lastOp := 0x01#8 }
    res :=
      { digest := #v[0x75a48a19#32, 0xd4cbe100#32, 0x644e8ac1#32, 0x397eea74#32, 0x7a2d33ab#32], offset := 11#32
        trunc := 0x41397EEA#32, codeVal := 287082#32, codeStr0 := 0x32383730#32, codeStr1 := 0x38320000#32 } } := by
  constructor <;> first | decide | skip
  · intro i h; cases h

/-- `CarriedAccessesNeverStopTheMachine`, `CommandInFlightAlwaysEnds`: pending accesses at the edges of the block. -/
theorem test_witness_carried :
    let s := { flight .totp withK20 with inputs := [.read 0x08 4, .write 0xFC 4 0#32, .write 0x0C 4 3#32, .engine] }
    s.InputsCarried ∧ s.rstN = true ∧ s.seq = .run .totp
      ∧ ∀ e ∈ s.inputs, e ≠ .rstLow ∧ e ≠ .rstHigh ∧ ∀ (off n : Nat) (v : Word), e = .write off n v →
          off = 0x0C → v.getLsbD 31 = false := by
  refine ⟨?_, rfl, rfl, ?_⟩
  · intro e he
    simp only [List.mem_cons, List.not_mem_nil, or_false] at he
    rcases he with rfl | rfl | rfl | rfl <;> simp [Event.Carried]
  · intro e he
    simp only [List.mem_cons, List.not_mem_nil, or_false] at he
    rcases he with rfl | rfl | rfl | rfl <;> simp

/-- `ResetValues`, `NothingIsServedWhileInReset`: a block held in reset. -/
theorem test_witness_in_reset : (assertReset (flight .totp row9)).rstN = false ∧ (0x80000003#32).getLsbD 31 = true := by decide

/-- `SequencerChangesInThreeWays`, `OperandsHoldWhileInFlight`: a command that stays in flight over a `STATUS` write, and
one that ends. -/
theorem test_witness_in_flight :
    let s := { flight .totp row9 with inputs := [.write 0x08 4 0x1E#32] }
    (∃ t, s.seq = .run .totp ∧ step s = .next t ∧ t.seq = .run .totp)
      ∧ ∃ t, step { s with inputs := [] } = .next t ∧ t.seq = .idle :=
  ⟨⟨_, rfl, rfl, rfl⟩, ⟨_, (step_nil _ rfl).trans (exec_run .totp (flight .totp row9) rfl), rfl⟩⟩

/-- `IdleBlockWaits`, `RunEndsIdleOrRefused`: final with nothing pending, and with engine and reset events pending. -/
theorem test_witness_final : (idleWith row9).Final ∧ (idleWith row9).inputs = []
    ∧ ({ idleWith row9 with inputs := [.engine, .rstLow, .rstHigh] } : State).Final
    ∧ (nextEvent { idleWith row9 with inputs := [.engine, .rstLow, .rstHigh] }).1 = .engine := by
  refine ⟨⟨fun _ he => (nomatch he), rfl⟩, rfl, ⟨?_, rfl⟩, rfl⟩
  intro e he
  simp only [List.mem_cons, List.not_mem_nil, or_false] at he
  rcases he with rfl | rfl | rfl <;> exact fun h => h

/-- R132: a pending transaction keeps an idle state from being final. -/
theorem test_not_final : ¬ ({ idleWith row9 with inputs := [.rstLow, .read 0x08 4] } : State).Final :=
  fun h => h.1 (.read 0x08 4) (by simp) trivial

/-- `RunEndsIdleOrRefused`: a command in flight, and the state a refused command leaves. -/
theorem test_witness_run_ends : (flight .totp withK20).seq ≠ .idle
    ∧ ∃ t, hostWrite 0x04 4 0x00000001#32 State.reset = .next t ∧ t.status.error = true ∧ t.HostDone :=
  ⟨by decide, _, rfl, rfl, fun _ he => (nomatch he)⟩

/-- `KeyIsNeverReadBack`: two keys, over `CLEAR` and over `VERIFY`. -/
theorem test_witness_key : SameButKey (flight .clear row9) (flight .clear { row9 with key := Vector.replicate 16 1#32 })
    ∧ SameButKey (flight .verify row9) (flight .verify { row9 with key := Vector.replicate 16 1#32 })
    ∧ (flight .verify row9).seq = .run .verify
    ∧ (∀ i, (flight .clear row9).seq = .run i → (nextEvent (flight .clear row9)).1 = .engine → i = .clear)
    ∧ ∃ s', step (flight .clear row9) = .next s' :=
  ⟨rfl, rfl, rfl, fun _ h _ => (Seq.run.inj h).symm, ⟨_, (step_nil _ rfl).trans (exec_run .clear (flight .clear row9) rfl)⟩⟩

/-- `EngineWorkIsDataIndependent`: two states of one window. -/
theorem test_witness_same_window : (flight .verify row9).ops.window = (idleWith { row9 with key := keyK20.set 0 0#32 }).ops.window
    ∧ row9.key ≠ keyK20.set 0 0#32 := by decide

end Sys2Proof.Tests
end

