-- ==== Sys2Proof/Proofs/Sequencer.lean ====
section
/-! PROOFS. The sequencer: what a served event does to `SEQ` (spec/10_state.md R15). -/

namespace Sys2Proof

/-- The decoder accepts one word for each command, its encoding (R50). -/
theorem eq_encode_of_decode {w : Word} {i : Instr} (h : decode w = .ok i) : w = encode i := by
  obtain ⟨hzero, hop⟩ := (decode_eq_ok_iff w i).mp h
  rw [word_eq_fields w, hzero, hop, encode]

end Sys2Proof

namespace Sys2Proof.Machine

/-- The three changes of `SEQ` that R15 allows, read off the ways an event can be served: acceptance, completion and
reset are the only ones that touch it. -/
theorem Served.seq_change {e : Event} {s t : State} (h : Served e s t) :
    t.seq = s.seq
      ∨ (∃ i : Instr, s.seq = .idle ∧ e = .write 0x04 4 (encode i) ∧ s.ops.Legal i ∧ t.seq = .run i)
      ∨ (∃ i : Instr, s.seq = .run i ∧ e = .engine ∧ t.seq = .idle ∧ t.status.done = true)
      ∨ (t.seq = .idle ∧ (e = .rstLow ∨ e = .rstHigh
          ∨ ∃ v : Word, v.getLsbD 31 = true ∧ e = .write 0x0C 4 v)) := by
  cases h with
  | accepted v i _ _ hs hd hl =>
    obtain rfl := eq_encode_of_decode hd
    exact .inr (.inl ⟨i, hs, rfl, hl, rfl⟩)
  | completed i _ _ hs => exact .inr (.inr (.inl ⟨i, hs, rfl, finish_seq _, by rw [finish_status]⟩))
  | softReset v _ _ hv => exact .inr (.inr (.inr ⟨resetBlock_seq _, .inr (.inr ⟨v, hv, rfl⟩)⟩))
  | resetLow _ => exact .inr (.inr (.inr ⟨assertReset_seq _, .inl rfl⟩))
  | resetHigh s _ => exact .inr (.inr (.inr ⟨resetBlock_seq s, .inr (.inl rfl)⟩))
  | read | status | enables | refused | stored | locked | readOnly | nothingToDo | inReset | released => exact .inl rfl

/-- Settles O51: a step serves its next event, and taking that event from the list touches neither `SEQ` nor the
operands. -/
theorem sequencerChangesInThreeWays : Obligations.SequencerChangesInThreeWays :=
  fun _ _ h => (step_served h).seq_change

end Sys2Proof.Machine
end

