-- ==== Sys2Proof/Proofs/Reset.lean ====
section
/-! PROOFS. The resets: each of the three ways into reset gives the block its reset values (spec/10_state.md R37;
spec/70_reset_and_hazards.md R118, R119). -/

namespace Sys2Proof.Machine

/-- `STATUS` reads 0 after a reset (R37). -/
theorem statusWord_resetBlock (s : State) : statusWord (resetBlock s) = 0#32 := by
  rw [statusWord, busy, resetBlock_status, resetBlock_seq]
  decide

/-- `CTRL` reads 0 after a reset (R37). -/
theorem ctrlWord_resetBlock (s : State) : ctrlWord (resetBlock s).ctrl = 0#32 := by
  rw [resetBlock_ctrl]
  decide

/-- The release of a pin held low leaves the block at its reset values (R118). -/
theorem serve_rstHigh_of_low {s : State} (hr : s.rstN = false) :
    serve .rstHigh s = .next { resetBlock s with rstN := true } := by
  rw [serve, releaseReset, if_neg (by simp [hr])]

/-- A write to `CTRL` with bit 31 set is the soft reset (R99, R119). -/
theorem hostWrite_softReset {v : Word} (hv : v.getLsbD 31 = true) (s : State) :
    hostWrite 0x0C 4 v s = .next (resetBlock s) := by
  rw [hostWrite_carried 0x0C v s (by decide) (by decide), regAt_ctrl, writeReg, writeCtrl, if_pos hv]

/-- Settles O47: every reset ends in a state that a reset of the block leaves as it is, and such a state shows the values
of R37. -/
theorem resetValues : Obligations.ResetValues := by
  intro s block shows
  have shown (t : State) (ht : t = resetBlock t) : shows t := by
    rw [ht]
    exact ⟨rfl, statusWord_resetBlock t, ctrlWord_resetBlock t, rfl⟩
  refine ⟨shown _ rfl, ⟨_, rfl, shown _ rfl⟩, fun hr => ?_, fun v hv => ?_⟩
  · exact ⟨_, serve_rstHigh_of_low hr, shown _ rfl, rfl⟩
  · exact ⟨_, hostWrite_softReset hv s, shown _ rfl, resetBlock_rstN s⟩

end Sys2Proof.Machine
end

