-- ==== Sys2Proof/Proofs/Encoding.lean ====
section
/-! PROOFS. The command word against the opcode map: which words are legal, and what the write of an illegal one does
(spec/30_encoding.md R50, R51). -/

namespace Sys2Proof

/-- The encoding of a command is a word of that command (R50). -/
theorem decode_encode (i : Instr) : decode (encode i) = .ok i := by
  cases i <;> rfl

/-- Decoding inverts the encoder, so the legal words are the encodings (R50). -/
theorem decode_eq_ok_iff_eq_encode (w : Word) (i : Instr) : decode w = .ok i ↔ w = encode i :=
  ⟨eq_encode_of_decode, fun h => h ▸ decode_encode i⟩

theorem encode_injective : Function.Injective encode := fun i j h => by
  simpa [decode_encode] using congrArg decode h

/-- A row of the opcode map fixes all 32 bits, to the encoding of its command (R50). -/
theorem mask_and_pattern_of_mem_opcodeTable {r : OpcodeRow} (hr : r ∈ opcodeTable) :
    r.mask = BitVec.allOnes 32 ∧ r.pattern = encode r.instr := by
  revert r
  decide

/-- A row covers one word, the encoding of its command. -/
theorem covers_iff_of_mem_opcodeTable {r : OpcodeRow} (hr : r ∈ opcodeTable) (w : Word) :
    r.covers w = true ↔ w = encode r.instr := by
  obtain ⟨hmask, hpattern⟩ := mask_and_pattern_of_mem_opcodeTable hr
  rw [OpcodeRow.covers, hmask, hpattern, BitVec.and_allOnes, beq_iff_eq]

/-- Every command has a row (R50). -/
theorem exists_row_of_instr (i : Instr) : ∃ r ∈ opcodeTable, r.instr = i := by
  cases i <;> decide

/-- No command has two rows (R50). -/
theorem opcodeTable_pairwise_instr_ne : opcodeTable.Pairwise (fun r q => r.instr ≠ q.instr) := by
  decide

/-- Settles O3: a row covers exactly its command's encoding, which is also the one word that decodes to that command; two
rows are of different commands, so of different words. -/
theorem decodeAgreesWithTheOpcodeMap : Obligations.DecodeAgreesWithTheOpcodeMap := by
  refine ⟨fun w i => ?_, fun _ _ => eq_encode_of_decode, ?_⟩
  · rw [decode_eq_ok_iff_eq_encode]
    constructor
    · rintro rfl
      obtain ⟨r, hr, rfl⟩ := exists_row_of_instr i
      exact ⟨r, hr, rfl, (covers_iff_of_mem_opcodeTable hr _).mpr rfl⟩
    · rintro ⟨r, hr, rfl, hw⟩
      exact (covers_iff_of_mem_opcodeTable hr w).mp hw
  · refine opcodeTable_pairwise_instr_ne.imp_of_mem fun hr hq hne w ⟨hrw, hqw⟩ => hne (encode_injective ?_)
    exact ((covers_iff_of_mem_opcodeTable hr w).mp hrw).symm.trans ((covers_iff_of_mem_opcodeTable hq w).mp hqw)

end Sys2Proof

namespace Sys2Proof.Machine

/-- An illegal word written to `CMD` in `IDLE` is refused with `IllegalCommand` (R51, R105). -/
theorem writeCmd_illegal {w : Word} {s : State} (hs : s.seq = .idle) (hw : ∀ i, w ≠ encode i) :
    writeCmd w s = .next (refuse (opcodeField w) .illegalCommand s) := by
  obtain ⟨i, hd, -⟩ | ⟨-, h⟩ := writeCmd_idle w s hs
  · exact absurd (eq_encode_of_decode hd) (hw i)
  · exact h

/-- Settles O4: the four words excluded are the four encodings, so the decoder refuses the word, and a refusal writes the
flags, `LASTOP` and the results only. -/
theorem illegalWordRaisesIllegalCommand : Obligations.IllegalWordRaisesIllegalCommand := by
  intro s w hs hhotp htotp hverify hclear
  have hw : ∀ i, w ≠ encode i
    | .hotp => hhotp
    | .totp => htotp
    | .verify => hverify
    | .clear => hclear
  rw [hostWrite_carried 0x04 w s (by decide) (by decide), regAt_cmd, writeReg, writeCmd_illegal hs hw,
    opcodeField_eq_setWidth]
  rfl

end Sys2Proof.Machine
end

