-- ==== Sys2Proof/Proofs/Hash.lean ====
section
/-! PROOFS. The counter encoder, the message schedule, HMAC in its fixed form, and the padded key
(spec/40_counter_sha1_hmac.md R61, R65, R69, R71). -/

namespace Sys2Proof.Machine

/-! ### The counter encoder -/

/-- A byte of a counter's encoding, by the shift of R61. -/
theorem byteAt_be64 (c : DWord) {i : Nat} (hi : i < 8) :
    byteAt (be64 c) i = (c >>> (8 * (7 - i))).setWidth 8 := by
  simp [byteAt, be64, hi]

theorem be64_injective : Function.Injective be64 := fun c d h => by
  rw [be64_eq, be64_eq] at h
  obtain ⟨hhi, hlo⟩ := List.append_inj h rfl
  rw [← join64_hi32_lo32 c, ← join64_hi32_lo32 d, be32_injective hhi, be32_injective hlo]

/-- Settles O23: a shift right is the division R61 writes, and the encoding's two halves give the counter back. -/
theorem counterEncoderIsBigEndian : Obligations.CounterEncoderIsBigEndian := by
  refine fun c => ⟨be64_length c, fun i hi => ?_, fun d h => be64_injective h, be64_join64⟩
  rw [byteAt_be64 c hi, BitVec.toNat_setWidth, BitVec.toNat_ushiftRight, Nat.shiftRight_eq_div_pow]

/-! ### The message schedule -/

/-- The word a schedule grows by last is the recurrence over the words before it. -/
theorem growSchedule_succ (n : Nat) (l : List Word) :
    growSchedule (n + 1) l = nextScheduleWord (growSchedule n l) :: growSchedule n l := by
  induction n generalizing l with
  | zero => rfl
  | succ n ih => rw [growSchedule, ih]; rfl

/-- Without its `m` latest words, a schedule is what it was `m` words ago. -/
theorem drop_growSchedule (m n : Nat) (l : List Word) : (growSchedule (m + n) l).drop m = growSchedule n l := by
  induction m with
  | zero => rw [Nat.zero_add, List.drop_zero]
  | succ m ih => rw [Nat.succ_add, growSchedule_succ, List.drop_succ_cons, ih]

/-- Word `t` of a schedule stands in every stage of its growth that has reached word `t`, counted there from the latest
word back. -/
theorem schedule_getD {block : List Word} (h : block.length = 16) {n t : Nat} (hn : n ≤ 64) (ht : t < n + 16) :
    (schedule block).getD t 0#32 = (growSchedule n block.reverse).getD (n + 15 - t) 0#32 := by
  have hlen : (growSchedule 64 block.reverse).length = 80 := by rw [growSchedule_length, List.length_reverse, h]
  have hstage := drop_growSchedule (64 - n) n block.reverse
  rw [Nat.sub_add_cancel hn] at hstage
  rw [schedule, List.take_of_length_le h.le, List.getD_reverse _ (by omega), hlen, ← hstage,
    List.getD_eq_getElem?_getD, List.getD_eq_getElem?_getD, List.getElem?_drop]
  congr 2
  omega

/-- Settles O25: the schedule starts as the block, and word `t` is the one it grew by when it held the words below
`t`. -/
theorem scheduleFollowsItsRecurrence : Obligations.ScheduleFollowsItsRecurrence := by
  refine fun block h => ⟨schedule_length block h, fun t ht => ?_, fun t h16 h80 => ?_⟩
  · rw [schedule_getD h (n := 0) (by omega) (by omega), growSchedule, List.getD_reverse _ (by omega), h]
    congr 1
    omega
  · obtain ⟨k, rfl⟩ := Nat.exists_eq_add_of_le' h16
    have hword (j : Nat) (hj : j < 16) :
        (growSchedule k block.reverse).getD j 0#32 = (schedule block).getD (k + 15 - j) 0#32 := by
      rw [schedule_getD h (n := k) (by omega) (by omega), Nat.sub_sub_self (by omega)]
    calc (schedule block).getD (k + 16) 0#32
      _ = nextScheduleWord (growSchedule k block.reverse) := by
        rw [schedule_getD h (n := k + 1) (by omega) (by omega), growSchedule_succ, Nat.sub_self, List.getD_cons_zero]
      _ = _ := by
        rw [nextScheduleWord, hword 2 (by decide), hword 7 (by decide), hword 13 (by decide), hword 15 (by decide)]
        rfl

/-! ### HMAC in its fixed form -/

/-- An 8-byte message, padded after one block, fills the inner block of R71. -/
theorem padded_counter_eq_innerBlock (c : DWord) :
    be64 c ++ [0x80#8] ++ List.replicate 47 0#8 ++ be64 576#64 = (innerBlock c).flatMap be32 := by
  rw [be64_eq c]
  rfl

/-- A 20-byte digest, padded after one block, fills the outer block of R71. -/
theorem padded_digest_eq_outerBlock (d : Chain) :
    d.bytes ++ [0x80#8] ++ List.replicate 35 0#8 ++ be64 672#64 = (outerBlock d).flatMap be32 :=
  rfl

/-- The inner hash is the compressions `S1` and `S2` of R71. -/
theorem sha1Chain_inner {k0 : List Byte} (h : k0.length = 64) (c : DWord) :
    sha1Chain (ipad k0 ++ be64 c) =
      compressWords (compressWords sha1Init ((blockWords k0).map (· ^^^ 0x36363636#32))) (innerBlock c) := by
  rw [sha1Chain_two_blocks _ _ (by rw [ipad_length, h]) (by rw [be64_length]; decide), be64_length, compress, compress,
    ipad, blockWords_xor k0 _ h]
  congr 1
  exact (congrArg blockWords (padded_counter_eq_innerBlock c)).trans (blockWords_flatMap _ rfl)

/-- The outer hash of a digest is the compressions `O1` and `D` of R71. -/
theorem sha1Chain_outer {k0 : List Byte} (h : k0.length = 64) (d : Chain) :
    sha1Chain (opad k0 ++ d.bytes) =
      compressWords (compressWords sha1Init ((blockWords k0).map (· ^^^ 0x5C5C5C5C#32))) (outerBlock d) := by
  rw [sha1Chain_two_blocks _ _ (by rw [opad_length, h]) (by rw [Chain.bytes_length]; decide), Chain.bytes_length,
    compress, compress, opad, blockWords_xor k0 _ h]
  congr 1
  exact (congrArg blockWords (padded_digest_eq_outerBlock d)).trans (blockWords_flatMap _ rfl)

/-- The HMAC of a counter under a padded key is what the engine's four compressions compute (R71). -/
theorem hmacSha1_be64 {k0 : List Byte} (h : k0.length = 64) (c : DWord) :
    hmacSha1 k0 (be64 c) = (hmacWork (blockWords k0) c).val.bytes := by
  rw [hmacSha1, sha1, sha1, sha1Chain_inner h, sha1Chain_outer h]
  rfl

/-- Settles O27: the four compressions are the engine's, over the blocks `innerBlock` and `outerBlock`. -/
theorem hmacIsFourFixedCompressions : Obligations.HmacIsFourFixedCompressions :=
  fun _ c h => hmacSha1_be64 h c

/-! ### The padded key -/

theorem byteAt_paddedKey (o : Operands) {i : Nat} (hi : i < 64) :
    byteAt o.paddedKey i = if i < o.keyLen.toNat then o.keyByte i else 0#8 := by
  simp [byteAt, Operands.paddedKey, Config.blockBytes, hi]

/-- Settles O28: a position below a legal `KEYLEN` is inside the block, and holds the key buffer's byte; any other is
masked. -/
theorem paddedKeyMasksTheTail : Obligations.PaddedKeyMasksTheTail := by
  refine fun o ⟨_, hmax⟩ => ⟨paddedKey_length o, fun i hi => ?_, fun i hi h64 => ?_⟩
  · rw [byteAt_paddedKey o (by omega), if_pos hi, keyByte_eq]
  · rw [byteAt_paddedKey o h64, if_neg (by omega)]

end Sys2Proof.Machine
end

