-- ==== Sys2Proof/Proofs/Truncation.lean ====
section
/-! PROOFS. The truncation as a read of the digest, and the value of a rendered code (spec/41_truncation_code.md R73, R74,
R76). -/

namespace Sys2Proof.Machine

/-! ### The truncated value -/

/-- The mask on the first byte takes the top bit, of weight 2^31, off the big-endian number of the four bytes (R74). -/
theorem toNat_dtTrunc (d : List Byte) :
    (dtTrunc d).toNat =
      (joinBytes (byteAt d (dtOffset d)) (byteAt d (dtOffset d + 1)) (byteAt d (dtOffset d + 2))
        (byteAt d (dtOffset d + 3))).toNat % 2 ^ 31 := by
  rw [dtTrunc_eq, toNat_joinBytes, toNat_joinBytes, and_7f]
  omega

/-- Settles O32: the offset is a remainder modulo 16, and the four bytes joined are their big-endian value. -/
theorem truncationIsAMaskedBigEndianRead : Obligations.TruncationIsAMaskedBigEndianRead := by
  intro d _ o
  have ho : dtOffset d = o := dtOffset_eq d
  refine ⟨ho, by omega, by omega, ?_⟩
  rw [toNat_dtTrunc, toNat_joinBytes, ho]

/-! ### The rendered code -/

/-- The number a string of ASCII digits spells in decimal (R76). -/
def decimalValue (s : List Byte) : Nat := s.foldl (fun n b => n * 10 + (b.toNat - 0x30)) 0

@[simp] theorem decimalValue_nil : decimalValue [] = 0 := rfl

/-- One more character multiplies the value by ten and adds a digit. -/
@[simp] theorem decimalValue_concat (s : List Byte) (b : Byte) :
    decimalValue (s ++ [b]) = decimalValue s * 10 + (b.toNat - 0x30) := by
  rw [decimalValue, List.foldl_append]
  rfl

/-- A character of a rendered code is the digit of its place (R76). -/
theorem dec6_getElem_toNat (code i : Nat) (hi : i < (dec6 code).length) :
    (dec6 code)[i].toNat = 48 + code / 10 ^ (5 - i) % 10 := by
  rw [← digit_toNat _ (Nat.mod_lt _ (by decide))]
  simp [dec6]

/-- The first `k` characters of a rendered code spell the code without its last `6 - k` digits. -/
theorem decimalValue_take_dec6 {code : Nat} (h : code < 1000000) {k : Nat} (hk : k ≤ 6) :
    decimalValue ((dec6 code).take k) = code / 10 ^ (6 - k) := by
  induction k with
  | zero => exact (Nat.div_eq_of_lt h).symm
  | succ k ih =>
    have hlt : k < (dec6 code).length := by rw [dec6_length]; omega
    have hplace : 10 ^ (6 - k) = 10 ^ (5 - k) * 10 := by rw [← Nat.pow_succ, Nat.succ_sub (by omega)]
    rw [List.take_succ_eq_append_getElem hlt, decimalValue_concat, ih (by omega), dec6_getElem_toNat, hplace,
      ← Nat.div_div_eq_div_mul, Nat.add_sub_cancel_left, Nat.div_add_mod', Nat.succ_sub_succ]

/-- A rendered code spells the code (R76). -/
theorem decimalValue_dec6 {code : Nat} (h : code < 1000000) : decimalValue (dec6 code) = code := by
  have hall := decimalValue_take_dec6 h le_rfl
  rwa [List.take_of_length_le (dec6_length code).le, Nat.sub_self, Nat.pow_zero, Nat.div_one] at hall

/-- Codes rendered alike are equal, since the string spells the code (R76). -/
theorem dec6_injOn : Set.InjOn dec6 {code | code < 1000000} := fun a ha b hb h => by
  rw [← decimalValue_dec6 ha, ← decimalValue_dec6 hb, h]

/-- Settles O33: the string spells its code, which makes the rendering injective, and any string of six bytes is read back
from the two registers. -/
theorem codeStringIsSixDigits : Obligations.CodeStringIsSixDigits := by
  refine ⟨fun code h => ⟨dec6_length code, dec6_digit code, decimalValue_dec6 h, ?_, str1_low _⟩, ?_⟩
  · exact str_readback _ (dec6_length code)
  · exact fun _ _ ha hb h => dec6_injOn ha hb h

end Sys2Proof.Machine
end

