-- ==== Sys2Proof/Proofs/Window.lean ====
section
/-! PROOFS. The time-to-counter derivation as a floor, and the window match as a statement about the counters in the
window (spec/42_time_window_compare.md R79, R80, R82, R83). -/

namespace Sys2Proof.Machine

/-! ### The base counter -/

/-- The quotient fits 64 bits, so nothing of it is lost (R79). -/
theorem baseCounter_toNat (time : DWord) (step : Word) :
    (baseCounter time step).toNat = time.toNat / step.toNat := by
  rw [baseCounter, BitVec.toNat_ofNat, Nat.mod_eq_of_lt ((Nat.div_le_self _ _).trans_lt time.isLt)]

/-- Settles O34: the counter is the quotient of natural numbers, whose bounds these are. -/
theorem baseCounterIsTheFloor : Obligations.BaseCounterIsTheFloor := by
  intro time step hpos _
  rw [baseCounter_toNat]
  exact ⟨Nat.div_mul_le_self _ _, (Nat.div_lt_iff_lt_mul hpos).mp (Nat.lt_succ_self _), Nat.div_le_self _ _⟩

/-! ### The window -/

/-- Counter `c` lies at most `w` away from `base`, in unbounded integers (R80). -/
def InWindow (base : DWord) (w : Nat) (c : DWord) : Prop :=
  base.toNat ≤ c.toNat + w ∧ c.toNat ≤ base.toNat + w

theorem InWindow.self (base : DWord) (w : Nat) : InWindow base w base := ⟨Nat.le_add_right _ _, Nat.le_add_right _ _⟩

theorem InWindow.mono {base c : DWord} {w v : Nat} (hwv : w ≤ v) (h : InWindow base w c) : InWindow base v c :=
  ⟨h.1.trans (Nat.add_le_add_left hwv _), h.2.trans (Nat.add_le_add_left hwv _)⟩

/-- An integer in range is its 64-bit pattern (R82). -/
theorem toNat_ofInt_of_inRange {n : Int} (hlo : 0 ≤ n) (hhi : n < 18446744073709551616) :
    ((BitVec.ofInt 64 n).toNat : Int) = n := by
  rw [BitVec.toNat_ofInt]
  omega

theorem candidateAt_cand (base : DWord) (w j : Nat) :
    (candidateAt base w j).cand = (base.toNat : Int) + ((j : Int) - (w : Int)) := rfl

/-- The in-range candidates are the counters in the window (R80). -/
theorem exists_inRange_candidate_iff (base : DWord) (w : Nat) (c : DWord) :
    (∃ x ∈ candidates base w, x.inRange = true ∧ BitVec.ofInt 64 x.cand = c) ↔ InWindow base w c := by
  simp only [mem_candidates]
  constructor
  · rintro ⟨_, ⟨j, hj, rfl⟩, hin, rfl⟩
    obtain ⟨hlo, hhi⟩ := (candidateAt_inRange base w j).mp hin
    have hval := toNat_ofInt_of_inRange hlo hhi
    have hcand := candidateAt_cand base w j
    constructor <;> omega
  · rintro ⟨hlo, hhi⟩
    have hval : (candidateAt base w (c.toNat + w - base.toNat)).cand = c.toNat := by
      rw [candidateAt_cand]
      omega
    refine ⟨_, ⟨c.toNat + w - base.toNat, by omega, rfl⟩, ?_, ?_⟩
    · rw [candidateAt_inRange, hval]
      omega
    · rw [hval, BitVec.ofInt_natCast, BitVec.ofNat_toNat, BitVec.setWidth_eq]

theorem candidateMatches_iff (k0 : List Byte) (t : Token) (x : Candidate) :
    candidateMatches k0 t x = true ↔
      t.equals (hotp k0 (BitVec.ofInt 64 x.cand)).str = true ∧ x.inRange = true := by
  rw [candidateMatches, Bool.and_eq_true]

/-- The window matches a token exactly when the token is the code of a counter in the window (R82). -/
theorem windowMatch_iff (k0 : List Byte) (base : DWord) (w : Nat) (t : Token) :
    windowMatch k0 base w t = true ↔ ∃ c, InWindow base w c ∧ t.equals (hotp k0 c).str = true := by
  simp only [windowMatch_eq_any, List.any_eq_true, candidateMatches_iff, ← exists_inRange_candidate_iff]
  constructor
  · rintro ⟨x, hx, heq, hin⟩
    exact ⟨_, ⟨x, hx, hin, rfl⟩, heq⟩
  · rintro ⟨_, ⟨x, hx, hin, rfl⟩, heq⟩
    exact ⟨x, hx, heq, hin⟩

/-- The order in which the candidates are evaluated does not matter (R83). -/
theorem foldl_candidateMatches_of_perm (k0 : List Byte) (base : DWord) (w : Nat) (t : Token) {cs : List Candidate}
    (h : cs.Perm (candidates base w)) :
    cs.foldl (fun m c => m || candidateMatches k0 t c) false = windowMatch k0 base w t := by
  rw [windowMatch_eq_any, foldl_or_eq_any, Bool.false_or, h.any_eq]

/-- Settles O37: (a) to (d) are about the counters in the window, of which the base is one and which stay in a wider
window; (e) is that an OR does not depend on the order. -/
theorem windowProperties : Obligations.WindowProperties := by
  intro k0 base w t
  refine ⟨fun heq => ?_, fun c hlo hhi heq => ?_, fun hne => ?_, fun v hwv hm => ?_, fun cs hcs => ?_⟩
  · exact (windowMatch_iff ..).mpr ⟨base, .self base w, heq⟩
  · exact (windowMatch_iff ..).mpr ⟨c, ⟨hlo, hhi⟩, heq⟩
  · rw [← Bool.not_eq_true, windowMatch_iff]
    rintro ⟨c, ⟨hlo, hhi⟩, heq⟩
    exact Bool.false_ne_true ((hne c hlo hhi).symm.trans heq)
  · obtain ⟨c, hc, heq⟩ := (windowMatch_iff ..).mp hm
    exact (windowMatch_iff ..).mpr ⟨c, hc.mono hwv, heq⟩
  · exact foldl_candidateMatches_of_perm k0 base w t hcs

end Sys2Proof.Machine
end

