-- ==== Sys2Proof/Proofs/Commands.lean ====
section
/-! PROOFS. A `CMD` write as acceptance, and each command's acceptance, refusals and completion (spec/43_commands.md R85,
R88 to R91). -/

namespace Sys2Proof.Machine

/-! ### The two ways a command issued in `IDLE` ends its acceptance -/

theorem exec_accepted {i : Instr} {s : State} (hs : s.seq = .idle) (hl : s.ops.Legal i) :
    exec i s = .next { beginCommand (opcodeOf i) s with seq := .run i } := by
  rw [exec_idle i s hs, (checksOf_eq_none_iff i s.ops).mpr hl, accept_none]

theorem exec_refused {i : Instr} {e : Err} {s : State} (hs : s.seq = .idle) (he : checksOf i s.ops = some e) :
    exec i s = .next (refuse (opcodeOf i) e s) := by
  rw [exec_idle i s hs, he, accept_some]

/-! ### Which check fails -/

theorem keyError_of_not_legal {o : Operands} (h : ¬ o.KeyLegal) : keyError o = some .invalidSecret :=
  ((keyError_cases o).resolve_left fun c => h c.1).2

theorem timeStepError_of_legal {o : Operands} (h : o.StepLegal) : timeStepError o = none :=
  ((timeStepError_cases o).resolve_right fun c => c.1 h).2

theorem timeStepError_of_not_legal {o : Operands} (h : ¬ o.StepLegal) : timeStepError o = some .invalidArgument :=
  ((timeStepError_cases o).resolve_left fun c => h c.1).2

theorem windowError_of_legal {o : Operands} (h : o.WindowLegal) : windowError o = none :=
  ((windowError_cases o).resolve_right fun c => c.1 h).2

theorem windowError_of_not_legal {o : Operands} (h : ¬ o.WindowLegal) : windowError o = some .invalidArgument :=
  ((windowError_cases o).resolve_left fun c => h c.1).2

/-- `TIMESTEP` and `WINDOW` raise the same error, so `VERIFY` raises it when either is illegal (R90). -/
theorem verifyChecks_of_illegal_argument {o : Operands} (h : ¬ (o.StepLegal ∧ o.WindowLegal)) :
    verifyChecks o = some .invalidArgument := by
  by_cases hstep : o.StepLegal
  · have hwindow : ¬ o.WindowLegal := fun hw => h ⟨hstep, hw⟩
    rw [verifyChecks, timeStepError_of_legal hstep, windowError_of_not_legal hwindow, Option.none_or, Option.some_or]
  · rw [verifyChecks, timeStepError_of_not_legal hstep, Option.some_or]

/-! ### The completion of `TOTP` -/

/-- The counter `HOTP` reads back is the base counter `TOTP` has just stored (R89). -/
theorem totpEffect_eq (s : State) :
    totpEffect s = { s with
      ops := s.ops.setCounter (baseCounter s.ops.time s.ops.timeStep)
      res := (hotp s.ops.paddedKey (baseCounter s.ops.time s.ops.timeStep)).registers } := by
  rw [← totpEffect_res]
  rfl

/-! ### Each command follows its rule -/

/-- Settles O14: `HOTP` is accepted or refused by the check of the key length alone. -/
theorem hotpFollowsItsRule : Obligations.HotpFollowsItsRule :=
  ⟨rfl, fun s =>
    ⟨fun hs hkey => exec_accepted hs hkey,
     fun hs hkey => exec_refused (i := .hotp) hs (keyError_of_not_legal hkey),
     fun hs _ => exec_run .hotp s hs⟩⟩

/-- Settles O15: an illegal `TIMESTEP` ends the checks, a legal one leaves the check of the key length; completion is that
of `HOTP` on the stored base counter. -/
theorem totpFollowsItsRule : Obligations.TotpFollowsItsRule := by
  refine ⟨rfl, fun s => ⟨fun hs hstep hkey => exec_accepted hs ⟨hstep, hkey⟩, fun hs hstep => ?_,
    fun hs hstep hkey => ?_, fun hs _ _ => ?_⟩⟩
  · have he : checksOf .totp s.ops = some .invalidArgument := by
      rw [checksOf, totpChecks, timeStepError_of_not_legal hstep, Option.some_or]
    exact exec_refused hs he
  · have he : checksOf .totp s.ops = some .invalidSecret := by
      rw [checksOf, totpChecks, timeStepError_of_legal hstep, keyError_of_not_legal hkey, Option.none_or]
    exact exec_refused hs he
  · rw [exec_run .totp s hs, effectOf, totpEffect_eq]
    rfl

/-- Settles O16: the key length is checked only after `TIMESTEP` and `WINDOW` passed; completion concludes with the
verdict of the window match. -/
theorem verifyFollowsItsRule : Obligations.VerifyFollowsItsRule := by
  refine ⟨rfl, fun s => ⟨fun hs hstep hwindow hkey => exec_accepted hs ⟨hstep, hwindow, hkey⟩,
    fun hs harg => exec_refused (i := .verify) hs (verifyChecks_of_illegal_argument harg), fun hs hstep hwindow hkey => ?_,
    fun hs _ _ _ => ?_⟩⟩
  · have he : checksOf .verify s.ops = some .invalidSecret := by
      rw [checksOf, verifyChecks, timeStepError_of_legal hstep, windowError_of_legal hwindow,
        keyError_of_not_legal hkey, Option.none_or, Option.none_or]
    exact exec_refused hs he
  · rw [exec_run .verify s hs, finish_effectOf_verify]
    rfl

/-- Settles O17: `CLEAR` checks nothing, and its effect writes the operand registers only. -/
theorem clearFollowsItsRule : Obligations.ClearFollowsItsRule :=
  ⟨rfl, fun s => ⟨fun hs => exec_accepted hs trivial, fun hs => exec_run .clear s hs⟩⟩

/-! ### The acceptance step, by the word written -/

/-- The illegal words by the numbers of R51: a nonzero `ZERO` field, or an opcode outside 1 to 4. -/
theorem ne_encode_iff (w : Word) :
    (∀ i, w ≠ encode i) ↔ w.toNat / 256 ≠ 0 ∨ w.toNat % 256 = 0 ∨ 4 < w.toNat % 256 := by
  have hrange : (∀ i, w ≠ encode i) ↔ w.toNat ≠ 1 ∧ w.toNat ≠ 2 ∧ w.toNat ≠ 3 ∧ w.toNat ≠ 4 := by
    simp only [Ne, BitVec.toNat_eq]
    constructor
    · exact fun h => ⟨h .hotp, h .totp, h .verify, h .clear⟩
    · rintro ⟨hhotp, htotp, hverify, hclear⟩ (_ | _ | _ | _)
      exacts [hhotp, htotp, hverify, hclear]
  rw [hrange]
  omega

theorem setWidth_encode (i : Instr) : (encode i).setWidth 8 = opcodeOf i := by
  cases i <;> rfl

/-- The choice of R50 by the word gives the command the word encodes. -/
theorem command_of_encode (i : Instr) :
    (if encode i = 0x01#32 then Instr.hotp else if encode i = 0x02#32 then .totp else if encode i = 0x03#32 then .verify
      else .clear) = i := by
  cases i <;> rfl

theorem keyError_eq (o : Operands) :
    keyError o = if o.keyLen = 0#32 ∨ 64 < o.keyLen.toNat then some .invalidSecret else none := rfl

theorem windowError_eq (o : Operands) :
    windowError o = if 255 < o.window.toNat then some .invalidArgument else none := rfl

/-- The checks after the first count only when the first passes (R107). -/
theorem check_or {p : Prop} [Decidable p] (e : Err) (rest : Option Err) :
    (if p then some e else none).or rest = if p then some e else rest := by
  split <;> rfl

/-- The checks in the order of R85, each guarded by the command words that ask for it. -/
theorem checksOf_eq (i : Instr) (o : Operands) :
    checksOf i o =
      if (encode i = 0x02#32 ∨ encode i = 0x03#32) ∧ (o.timeStep = 0#32 ∨ o.timeStep.getLsbD 31 = true)
        then some .invalidArgument
      else if encode i = 0x03#32 ∧ 255 < o.window.toNat then some .invalidArgument
      else if (encode i = 0x01#32 ∨ encode i = 0x02#32 ∨ encode i = 0x03#32) ∧ (o.keyLen = 0#32 ∨ 64 < o.keyLen.toNat)
        then some .invalidSecret
      else none := by
  cases i with
  | hotp => simp [encode, opcodeOf, checksOf, hotpChecks, keyError_eq]
  | totp => simp [encode, opcodeOf, checksOf, totpChecks, timeStepError, keyError_eq, check_or]
  | verify => simp [encode, opcodeOf, checksOf, verifyChecks, timeStepError, windowError_eq, keyError_eq, check_or]
  | clear => simp [encode, opcodeOf, checksOf, clearChecks]

/-- Settles O10: an illegal word is refused by the decoder; a legal one is the acceptance of its command, whose checks are
the chain of R85; a busy block ignores either. -/
theorem commandWriteIsAcceptance : Obligations.CommandWriteIsAcceptance := by
  intro s w
  rw [hostWrite_carried 0x04 w s (by decide) (by decide), regAt_cmd, writeReg]
  refine ⟨fun hs => ?_, writeCmd_busy w s⟩
  intro cleared raised
  by_cases hw : ∀ i, w ≠ encode i
  · rw [writeCmd_illegal hs hw, opcodeField_eq_setWidth, if_pos ((ne_encode_iff w).mp hw)]
    rfl
  · rw [if_neg (mt (ne_encode_iff w).mpr hw)]
    obtain ⟨i, rfl⟩ : ∃ i, w = encode i := by simpa using hw
    rw [writeCmd_ok hs (decode_encode i), exec_idle i s hs, checksOf_eq, command_of_encode]
    simp only [cleared, raised, setWidth_encode]
    split_ifs <;> rfl

end Sys2Proof.Machine
end

