-- ==== Sys2Proof/Proofs/HostAccess.lean ====
section
/-! PROOFS. The host's accesses by offset: what stands at each offset (spec/10_state.md R14, R34), what a read of it returns
and what a write to it does (spec/44_host_access.md R94 to R100). -/

namespace Sys2Proof.Machine

/-! ### The register at an offset -/

/-- The register map lists every register at its own offset (R14). -/
theorem fst_eq_byteOffset_of_mem : ∀ row ∈ registerMap, row.1 = row.2.byteOffset := by decide

/-- A register is found at its own offset only; the reserved offsets hold none (R14, R34). -/
theorem eq_byteOffset_of_regAt {off : Nat} {r : Reg} (h : regAt off = r) (hr : r ≠ .reserved) : off = r.byteOffset :=
  fst_eq_byteOffset_of_mem (off, r) (regAt_row h hr)

theorem regAt_key (n : Fin 16) : regAt (0x40 + 4 * n.val) = .operand (.key n) := by
  revert n
  decide

theorem regAt_digest (n : Fin 5) : regAt (0x80 + 4 * n.val) = .result (.digest n) := by
  revert n
  decide

theorem regAt_operand (r : OperandReg) : regAt r.byteOffset = .operand r := by
  cases r with
  | key n => exact regAt_key n
  | _ => rfl

/-- The reserved word offsets are 0x38, 0x3C and those from 0xA8 on (R34). -/
theorem regAt_eq_reserved_iff {off : Nat} (h4 : off % 4 = 0) (hlt : off < 256) :
    regAt off = .reserved ↔ off = 0x38 ∨ off = 0x3C ∨ 0xA8 ≤ off := by
  have hword : ∀ k < 64, regAt (4 * k) = .reserved ↔ 4 * k = 0x38 ∨ 4 * k = 0x3C ∨ 0xA8 ≤ 4 * k := by decide
  obtain ⟨k, rfl⟩ := Nat.dvd_of_mod_eq_zero h4
  exact hword k (by omega)

theorem OperandReg.byteOffset_mod (r : OperandReg) : r.byteOffset % 4 = 0 := by
  cases r with
  | key n => rw [byteOffset]; omega
  | _ => rfl

/-- The operand registers lie in two ranges of offsets (R14). -/
theorem OperandReg.byteOffset_range (r : OperandReg) :
    (0x10 ≤ r.byteOffset ∧ r.byteOffset ≤ 0x34) ∨ (0x40 ≤ r.byteOffset ∧ r.byteOffset ≤ 0x7C) := by
  cases r with
  | key n => exact .inr (by rw [byteOffset]; omega)
  | _ => exact .inl (by decide)

/-- The result registers lie in one range of offsets (R14). -/
theorem ResultReg.byteOffset_range (r : ResultReg) : 0x80 ≤ r.byteOffset ∧ r.byteOffset ≤ 0xA4 := by
  cases r with
  | digest n => rw [byteOffset]; omega
  | _ => decide

/-- What the host cannot write while the block is busy stands in the locked ranges (R97). -/
theorem regAt_locked {off : Nat} (h4 : off % 4 = 0)
    (h : off = 0x04 ∨ (0x10 ≤ off ∧ off ≤ 0x34) ∨ (0x40 ≤ off ∧ off ≤ 0x7C)) :
    regAt off = .cmd ∨ ∃ r, regAt off = .operand r := by
  cases hreg : regAt off with
  | cmd => exact .inl rfl
  | operand r => exact .inr ⟨r, rfl⟩
  | id | status | ctrl =>
    have hoff := eq_byteOffset_of_regAt hreg (by decide)
    rw [Reg.byteOffset] at hoff
    omega
  | result r =>
    have hoff : off = r.byteOffset := eq_byteOffset_of_regAt hreg (by simp)
    have := r.byteOffset_range
    omega
  | reserved =>
    have := (regAt_eq_reserved_iff h4 (by omega)).mp hreg
    omega

/-- What the host can never write stands at `ID`, in the result range and at the reserved offsets (R100). -/
theorem regAt_readOnly {off : Nat} (h : off = 0x00 ∨ off = 0x38 ∨ off = 0x3C ∨ (0x80 ≤ off ∧ off < 256)) :
    regAt off = .id ∨ regAt off = .reserved ∨ ∃ r, regAt off = .result r := by
  cases hreg : regAt off with
  | id => exact .inl rfl
  | reserved => exact .inr (.inl rfl)
  | result r => exact .inr (.inr ⟨r, rfl⟩)
  | cmd | status | ctrl =>
    have hoff := eq_byteOffset_of_regAt hreg (by decide)
    rw [Reg.byteOffset] at hoff
    omega
  | operand r =>
    have hoff : off = r.byteOffset := eq_byteOffset_of_regAt hreg (by simp)
    have := r.byteOffset_range
    omega

/-! ### Reads -/

/-- A field of a word is read off bit by bit. -/
theorem extractLsb'_eq_of_getLsbD {w : Word} {start len : Nat} {field : BitVec len}
    (h : ∀ i < len, w.getLsbD (start + i) = field.getLsbD i) : w.extractLsb' start len = field := by
  apply BitVec.eq_of_getLsbD_eq
  intro i hi
  rw [BitVec.getLsbD_extractLsb', decide_eq_true hi, Bool.true_and, h i hi]

/-- The bits of a `STATUS` read: the flags from bit 0 up, `ERRCODE` from bit 8, `LASTOP` from bit 16 (R94). -/
theorem statusWord_getLsbD (s : State) {i : Nat} (hi : i < 32) :
    (statusWord s).getLsbD i =
      if i < 8 then [busy s, s.status.done, s.status.error, s.status.matched, s.status.wrIgn].getD i false
      else if i < 16 then s.status.errCode.getLsbD (i - 8)
      else s.status.lastOp.getLsbD (i - 16) := by
  simp only [statusWord, BitVec.getLsbD_or, BitVec.getLsbD_shiftLeft, BitVec.getLsbD_setWidth, bitWord_getLsbD]
  interval_cases i <;> simp

theorem statusWord_flag (s : State) {i : Nat} (hi : i < 8) :
    (statusWord s).getLsbD i = [busy s, s.status.done, s.status.error, s.status.matched, s.status.wrIgn].getD i false := by
  rw [statusWord_getLsbD s (by omega), if_pos hi]

theorem statusWord_errCode (s : State) {i : Nat} (hi : i < 8) :
    (statusWord s).getLsbD (8 + i) = s.status.errCode.getLsbD i := by
  rw [statusWord_getLsbD s (by omega), if_neg (by omega), if_pos (by omega), Nat.add_sub_cancel_left]

theorem statusWord_lastOp (s : State) {i : Nat} (hi : i < 16) :
    (statusWord s).getLsbD (16 + i) = s.status.lastOp.getLsbD i := by
  rw [statusWord_getLsbD s (by omega), if_neg (by omega), if_neg (by omega), Nat.add_sub_cancel_left]

/-- `BUSY` is 1 while a command is in flight (R18). -/
theorem busy_eq_decide (s : State) : busy s = decide (s.seq ≠ .idle) := by
  rw [busy, bne, Bool.beq_eq_decide_eq, decide_not]

/-- The bits of a `CTRL` read: the two enables from bit 0 up (R94). -/
theorem ctrlWord_getLsbD (c : Ctrl) (i : Nat) : (ctrlWord c).getLsbD i = [c.ieDone, c.ieError].getD i false := by
  rw [ctrlWord, BitVec.getLsbD_or, BitVec.getLsbD_shiftLeft, bitWord_getLsbD, bitWord_getLsbD]
  match i with
  | 0 => simp
  | 1 => simp
  | i + 2 => simp

/-- Settles O38: a carried read returns what the map's register at the offset reads as. `STATUS` and `CTRL` are read off
field by field, the three ranges by the register they hold, and every other offset is one row of the map. -/
theorem readsReturnTheTable : Obligations.ReadsReturnTheTable := by
  intro s off h4 hlt
  refine ⟨readReg s (regAt off), hostRead_carried off s h4 hlt, ?_, ?_, ?status, ?ctrl, ?_, ?_, ?_, ?_, ?_, ?_, ?_, ?_, ?_,
    ?_, ?key, ?digest, ?_, ?_, ?_, ?_, ?_, ?reserved⟩
  case status =>
    rintro rfl
    rw [regAt_status, readReg]
    have flag {i : Nat} (hi : i < 8) := statusWord_flag s hi
    refine ⟨(flag (by decide)).trans (busy_eq_decide s), flag (by decide), flag (by decide), flag (by decide),
      flag (by decide), ?_, ?_, ?_, ?_, ?_⟩ <;> refine extractLsb'_eq_of_getLsbD fun i hi => ?_
    · rw [flag (by omega), List.getD_eq_default _ _ (by simp), BitVec.getLsbD_zero]
    · exact statusWord_errCode s (by omega)
    · rw [show 12 + i = 8 + (4 + i) by omega, statusWord_errCode s (by omega), BitVec.getLsbD_of_ge _ _ (by omega),
        BitVec.getLsbD_zero]
    · exact statusWord_lastOp s (by omega)
    · rw [show 24 + i = 16 + (8 + i) by omega, statusWord_lastOp s (by omega), BitVec.getLsbD_of_ge _ _ (by omega),
        BitVec.getLsbD_zero]
  case ctrl =>
    rintro rfl
    rw [regAt_ctrl, readReg]
    refine ⟨ctrlWord_getLsbD _ 0, ctrlWord_getLsbD _ 1, extractLsb'_eq_of_getLsbD fun i _ => ?_⟩
    rw [ctrlWord_getLsbD, List.getD_eq_default _ _ (by simp), BitVec.getLsbD_zero]
  case key =>
    rintro ⟨hlo, hhi⟩
    obtain ⟨n, rfl⟩ : ∃ n : Fin 16, off = 0x40 + 4 * n.val := ⟨⟨(off - 0x40) / 4, by omega⟩, by simp only; omega⟩
    rw [regAt_key]
    rfl
  case digest =>
    rintro n rfl
    rw [regAt_digest]
    rfl
  case reserved =>
    intro h
    rw [(regAt_eq_reserved_iff h4 hlt).mpr h]
    rfl
  all_goals
    rintro rfl
    rfl

/-! ### Writes -/

theorem writeOperand_idle (r : OperandReg) (v : Word) {s : State} (hs : s.seq = .idle) :
    writeOperand r v s = { s with ops := s.ops.put v r } :=
  ((writeOperand_cases r v s).resolve_right fun h => h.1 hs).2

theorem writeOperand_busy (r : OperandReg) (v : Word) {s : State} (hs : s.seq ≠ .idle) :
    writeOperand r v s = ignoreLocked s :=
  ((writeOperand_cases r v s).resolve_left fun h => hs h.1).2

/-- Settles O39: the offset is the register's own, and in `IDLE` the write is the store of R96. -/
theorem operandWriteStoresTheValue : Obligations.OperandWriteStoresTheValue := by
  intro s r v hs
  have hlt : r.byteOffset < 256 := by have := r.byteOffset_range; omega
  refine ⟨{ s with ops := s.ops.put v r }, ?_, rfl, get_put_same s.ops v r, get_put_other s.ops v r⟩
  rw [hostWrite_carried _ v s r.byteOffset_mod hlt, regAt_operand, writeReg, writeOperand_idle r v hs]

/-- Settles O40: at the locked offsets stand `CMD` and the operand registers, and a busy block ignores the write of
either. -/
theorem lockedWriteOnlySetsWrign : Obligations.LockedWriteOnlySetsWrign := by
  intro s off v hs h4 hoff
  rw [hostWrite_carried off v s h4 (by omega)]
  obtain hreg | ⟨r, hreg⟩ := regAt_locked h4 hoff
  · rw [hreg]
    exact writeCmd_busy v s hs
  · rw [hreg, writeReg, writeOperand_busy r v hs, ignoreLocked]

/-- Clearing a flag by a written 1 (R98). -/
theorem and_not_eq_ite (flag bit : Bool) : (flag && !bit) = if bit = true then false else flag := by
  cases bit <;> simp

/-- Settles O41: each flag is kept where its bit is written 0. -/
theorem statusWriteClearsFlags : Obligations.StatusWriteClearsFlags := by
  intro s v
  rw [hostWrite_carried 0x08 v s (by decide) (by decide), regAt_status, writeReg, writeStatus, clearFlags, and_not_eq_ite,
    and_not_eq_ite, and_not_eq_ite]

/-- Settles O42: bit 31 decides between the soft reset and the store. -/
theorem ctrlWriteStoresOrResets : Obligations.CtrlWriteStoresOrResets := by
  refine fun s v => ⟨fun hv => hostWrite_softReset hv s, fun hv => ?_⟩
  rw [hostWrite_carried 0x0C v s (by decide) (by decide), regAt_ctrl, writeReg, writeCtrl,
    if_neg (ne_true_of_eq_false hv), ctrlOf]

/-- Settles O43: a register the host can never write stands at each of these offsets. -/
theorem readOnlyWritesAreIgnored : Obligations.ReadOnlyWritesAreIgnored := by
  intro s off v h4 hoff
  rw [hostWrite_carried off v s h4 (by omega)]
  obtain hreg | hreg | ⟨r, hreg⟩ := regAt_readOnly hoff
  all_goals rw [hreg, writeReg]

end Sys2Proof.Machine
end

/-! PROOFS. The statements about the whole machine and about what its commands share: the invariants of every step, the
stored key, one step by its event, the pure functions, the engine of fixed units, the errors of acceptance, and the frames
and verdicts of the completions. -/

namespace Sys2Proof.Machine

/-! ## The invariants of every step (spec/10_state.md sections 3 to 5) -/

/-! ### The result registers -/

/-- The invariants that speak of the result registers alone (R28, R30 to R33). -/
structure Results.Sound (r : Results) : Prop where
  whole : r = Results.zero ∨ r = (truncate r.digestBytes).registers
  offset : r.offset.toNat ≤ 15
  trunc : r.trunc.getLsbD 31 = false
  codeVal : r.codeVal.toNat ≤ 999999
  codeStr1 : r.codeStr1.setWidth 16 = 0#16

theorem Results.sound_zero : Results.zero.Sound where
  whole := .inl rfl
  offset := by decide
  trunc := by decide
  codeVal := by decide
  codeStr1 := by decide

/-- The registers a completion of `HOTP` or `TOTP` writes are sound (R88). -/
theorem HotpResult.sound_registers (k0 : List Byte) (c : DWord) : (hotp k0 c).registers.Sound where
  whole := .inr (by rw [hotp_registers_digestBytes, hotp])
  offset := by
    change (BitVec.ofNat 32 (dtOffset _)).toNat ≤ 15
    rw [dtOffset_eq, BitVec.toNat_ofNat]
    omega
  trunc := dtTrunc_top _
  codeVal := by
    change (BitVec.ofNat 32 (codeOf _)).toNat ≤ 999999
    have hlt := codeOf_lt (dtTrunc (hmacSha1 k0 (be64 c)))
    rw [BitVec.toNat_ofNat, Nat.mod_eq_of_lt (by omega)]
    omega
  codeStr1 := str1_low _

theorem State.Inv.sound {s : State} (h : s.Inv) : s.res.Sound :=
  ⟨h.resultsWhole, h.offsetRange, h.truncRange, h.codeRange, h.codeStr1Low⟩

/-! ### What a completion leaves and writes -/

@[simp] theorem effectOf_error (i : Instr) (s : State) : (effectOf i s).status.error = s.status.error := by cases i <;> rfl
@[simp] theorem effectOf_errCode (i : Instr) (s : State) : (effectOf i s).status.errCode = s.status.errCode := by
  cases i <;> rfl
@[simp] theorem effectOf_wrIgn (i : Instr) (s : State) : (effectOf i s).status.wrIgn = s.status.wrIgn := by cases i <;> rfl
@[simp] theorem effectOf_lastOp (i : Instr) (s : State) : (effectOf i s).status.lastOp = s.status.lastOp := by
  cases i <;> rfl

/-- Only `VERIFY` gives a verdict (R90). -/
theorem effectOf_matched {i : Instr} (hi : i ≠ .verify) (s : State) :
    (effectOf i s).status.matched = s.status.matched := by
  cases i with
  | verify => exact absurd rfl hi
  | hotp | totp | clear => rfl

/-- `VERIFY` and `CLEAR` write no result register (R90, R91). -/
theorem effectOf_res {i : Instr} (hi : i = .verify ∨ i = .clear) (s : State) : (effectOf i s).res = s.res := by
  obtain rfl | rfl := hi <;> rfl

/-- Either the results stay, or they are those of the `HOTP` function and the command is `HOTP` or `TOTP` (R88, R89). -/
theorem effectOf_res_cases (i : Instr) (s : State) :
    (effectOf i s).res = s.res ∨ (i = .hotp ∨ i = .totp) ∧ ∃ k0 c, (effectOf i s).res = (hotp k0 c).registers := by
  cases i with
  | hotp => exact .inr ⟨.inl rfl, _, _, hotpEffect_res s⟩
  | totp => exact .inr ⟨.inr rfl, _, _, totpEffect_res s⟩
  | verify | clear => exact .inl rfl

/-- The unimplemented half of `TOKEN1` stays 0 over a completion (R27). -/
theorem effectOf_token1_low (i : Instr) {s : State} (h : s.ops.token1.setWidth 16 = 0#16) :
    (effectOf i s).ops.token1.setWidth 16 = 0#16 := by
  cases i with
  | hotp | totp | verify => exact h
  | clear => rfl

/-! ### The invariants -/

/-- A block at its reset values meets the invariants (R37, R118). -/
theorem inv_of_eq_resetBlock {s : State} (h : s = resetBlock s) : s.Inv := by
  rw [h]
  have hres : (resetBlock s).res.Sound := Results.sound_zero
  exact {
    errorSet := fun he => absurd he Bool.false_ne_true
    errorClear := fun _ => rfl
    errCodeRange := Nat.zero_le 3
    busyClear := fun hb => absurd rfl hb
    inFlight := fun _ hi => nomatch hi
    matchSet := fun hm => absurd hm Bool.false_ne_true
    resultsWhole := hres.whole
    resultsOwned := fun hr => absurd rfl hr
    token1Low := rfl
    offsetRange := hres.offset
    truncRange := hres.trunc
    codeRange := hres.codeVal
    codeStr1Low := hres.codeStr1
    resetHeld := fun _ => (resetBlock_resetBlock s).symm }

/-- Settles O49: the reset state is a block at its reset values. -/
theorem invariantsHoldAtReset : Obligations.InvariantsHoldAtReset :=
  inv_of_eq_resetBlock rfl

/-- The invariants say nothing of the events still to come. -/
theorem State.Inv.withInputs {s : State} (h : s.Inv) (l : List Event) : ({ s with inputs := l } : State).Inv :=
  { h with resetHeld := fun hr => congrArg (fun b : State => { b with inputs := l }) (h.resetHeld hr) }

/-- While the pin is released nothing is held in reset (R118). -/
theorem resetHeld_of_released {s : State} (hr : s.rstN = true) (hlow : s.rstN = false) : s = resetBlock s :=
  absurd (hr.symm.trans hlow) (by decide)

/-- An error flag written with a 1 is cleared with its code; written with a 0, both stay (R98). -/
theorem clearFlags_error_cases (v : Word) (f : Status) :
    (v.getLsbD 2 = true ∧ (clearFlags v f).error = false ∧ (clearFlags v f).errCode = 0#4)
      ∨ (v.getLsbD 2 = false ∧ (clearFlags v f).error = f.error ∧ (clearFlags v f).errCode = f.errCode) := by
  unfold clearFlags
  cases v.getLsbD 2 <;> simp

theorem clearFlags_done {f : Status} (h : f.done = false) (v : Word) : (clearFlags v f).done = false := by
  rw [clearFlags, h, Bool.false_and]

theorem clearFlags_error {f : Status} (h : f.error = false) (v : Word) : (clearFlags v f).error = false := by
  rw [clearFlags, h, Bool.false_and]

/-- The codes of the three errors are 1 to 3 (R102). -/
theorem Err.code_range (e : Err) : e.code ≠ 0#4 ∧ e.code.toNat ≤ 3 := by
  cases e <;> decide

section Served

variable {s : State} (h : s.Inv) (hr : s.rstN = true)
include h hr

/-- A write to `STATUS` sets no flag, and clears `ERROR` and `ERRCODE` together or neither (R98). -/
theorem State.Inv.writeStatus (v : Word) : (writeStatus v s).Inv := by
  have hheld := resetHeld_of_released (s := Machine.writeStatus v s) hr
  have hbusy (hb : s.seq ≠ .idle) : (clearFlags v s.status).done = false ∧ (clearFlags v s.status).error = false
      ∧ s.status.matched = false ∧ s.res = Results.zero := by
    obtain ⟨hdone, herr, hrest⟩ := h.busyClear hb
    exact ⟨clearFlags_done hdone v, clearFlags_error herr v, hrest⟩
  obtain ⟨-, he, hc⟩ | ⟨-, he, hc⟩ := clearFlags_error_cases v s.status
  · exact { h with
      errorSet := fun herr => absurd (he.symm.trans herr) Bool.false_ne_true
      errorClear := fun _ => hc
      errCodeRange := by rw [writeStatus_status, hc]; decide
      busyClear := hbusy
      resetHeld := hheld }
  · exact { h with
      errorSet := fun herr => by
        obtain ⟨hcode, hseq, hdone, hrest⟩ := h.errorSet (he.symm.trans herr)
        exact ⟨hc.trans_ne hcode, hseq, clearFlags_done hdone v, hrest⟩
      errorClear := fun herr => hc.trans (h.errorClear (he.symm.trans herr))
      errCodeRange := by rw [writeStatus_status, hc]; exact h.errCodeRange
      busyClear := hbusy
      resetHeld := hheld }

/-- A command accepted clears flags and results, records its opcode, and its operands passed the checks (R85). -/
theorem State.Inv.accepted {i : Instr} (hl : s.ops.Legal i) :
    ({ beginCommand (opcodeOf i) s with seq := .run i } : State).Inv where
  errorSet := fun he => absurd he Bool.false_ne_true
  errorClear := fun _ => rfl
  errCodeRange := Nat.zero_le 3
  busyClear := fun _ => ⟨rfl, rfl, rfl, rfl⟩
  inFlight := fun _ hj => Seq.run.inj hj ▸ ⟨hl, rfl⟩
  matchSet := fun hm => absurd hm Bool.false_ne_true
  resultsWhole := Results.sound_zero.whole
  resultsOwned := fun hne => absurd rfl hne
  token1Low := h.token1Low
  offsetRange := Results.sound_zero.offset
  truncRange := Results.sound_zero.trunc
  codeRange := Results.sound_zero.codeVal
  codeStr1Low := Results.sound_zero.codeStr1
  resetHeld := resetHeld_of_released hr

/-- A command refused in `IDLE` clears flags and results and shows its error (R108). -/
theorem State.Inv.refuse (hs : s.seq = .idle) (low : BitVec 8) (e : Err) : (refuse low e s).Inv where
  errorSet := fun _ => ⟨e.code_range.1, hs, rfl, rfl, rfl⟩
  errorClear := fun he => absurd he.symm Bool.false_ne_true
  errCodeRange := e.code_range.2
  busyClear := fun hb => absurd hs hb
  inFlight := fun _ hj => nomatch hs.symm.trans hj
  matchSet := fun hm => absurd hm Bool.false_ne_true
  resultsWhole := Results.sound_zero.whole
  resultsOwned := fun hne => absurd rfl hne
  token1Low := h.token1Low
  offsetRange := Results.sound_zero.offset
  truncRange := Results.sound_zero.trunc
  codeRange := Results.sound_zero.codeVal
  codeStr1Low := Results.sound_zero.codeStr1
  resetHeld := resetHeld_of_released hr

/-- A store happens in `IDLE`, where no command in flight rests on the operands (R96). -/
theorem State.Inv.stored (hs : s.seq = .idle) (r : OperandReg) (v : Word) :
    ({ s with ops := s.ops.put v r } : State).Inv :=
  { h with
    inFlight := fun _ hj => nomatch hs.symm.trans hj
    token1Low := put_token1_low s.ops v r h.token1Low
    resetHeld := resetHeld_of_released hr }

/-- A completion sets `DONE` over the cleared flags of a busy block, and leaves results only where `HOTP` or `TOTP` wrote
them (R18, R28, R87). -/
theorem State.Inv.completed {i : Instr} (hs : s.seq = .run i) : (finish (effectOf i s)).Inv := by
  obtain ⟨-, herr, hmatched, hzero⟩ := h.busyClear (by rw [hs]; nofun)
  obtain ⟨-, hlast⟩ := h.inFlight i hs
  have hcode := h.errorClear herr
  have hres : (effectOf i s).res.Sound := by
    obtain he | ⟨-, k0, c, he⟩ := effectOf_res_cases i s
    · exact he ▸ h.sound
    · exact he ▸ HotpResult.sound_registers k0 c
  exact {
    errorSet := fun he => absurd ((effectOf_error i s).symm.trans he) (by simp [herr])
    errorClear := fun _ => (effectOf_errCode i s).trans hcode
    errCodeRange := by rw [finish_status, effectOf_errCode]; exact h.errCodeRange
    busyClear := fun hb => absurd (finish_seq _) hb
    inFlight := fun _ hj => nomatch hj
    matchSet := fun hm => by
      obtain rfl | hi := eq_or_ne i .verify
      · exact ⟨(effectOf_lastOp _ s).trans hlast, rfl⟩
      · exact absurd ((effectOf_matched hi s).symm.trans hm) (by simp [hmatched])
    resultsWhole := hres.whole
    resultsOwned := fun hne => by
      rw [finish_status, effectOf_lastOp, hlast]
      obtain he | ⟨rfl | rfl, -⟩ := effectOf_res_cases i s
      · exact absurd (he.trans hzero) hne
      · exact .inl rfl
      · exact .inr rfl
    token1Low := effectOf_token1_low i h.token1Low
    offsetRange := hres.offset
    truncRange := hres.trunc
    codeRange := hres.codeVal
    codeStr1Low := hres.codeStr1
    resetHeld := resetHeld_of_released ((effectOf_rstN i s).trans hr) }

end Served

/-- Every way an event can be served keeps the invariants. -/
theorem Served.inv {e : Event} {s t : State} (hst : Served e s t) (h : s.Inv) : t.Inv := by
  cases hst with
  | status v _ hr => exact h.writeStatus hr v
  | accepted v i _ hr _ _ hl => exact h.accepted hr hl
  | refused v low e _ hr hs _ => exact h.refuse hr hs low e
  | stored off r v _ hr hs _ => exact h.stored hr hs r v
  | completed i _ hr hs => exact h.completed hr hs
  | read _ _ hr | enables _ _ hr | locked _ _ _ hr => exact { h with resetHeld := resetHeld_of_released hr }
  | softReset | resetLow | resetHigh => exact inv_of_eq_resetBlock rfl
  | readOnly | nothingToDo | inReset | released => exact h

/-- Settles O50: taking the event from the list keeps the invariants, and so does each way of serving it. -/
theorem stepKeepsTheInvariants : Obligations.StepKeepsTheInvariants :=
  fun _ _ h hstep => (step_served hstep).inv (h.withInputs _)

/-! ## The stored key is not observable (spec/10_state.md section 4) -/

/-! ### The ways of service are exactly what is served -/

/-- What is served while the pin is released is an event the port carries (R43). -/
theorem carried_of_serve {e : Event} {s t : State} (hr : s.rstN = true) (h : serve e s = .next t) : e.Carried := by
  cases e with
  | read off n =>
    rw [serve, if_pos hr] at h
    obtain ⟨hn, h4, hlt, -⟩ := hostRead_next h
    exact ⟨hn, h4, hlt⟩
  | write off n v =>
    rw [serve, if_pos hr] at h
    obtain ⟨hn, h4, hlt, -⟩ := hostWrite_next h
    exact ⟨hn, h4, hlt⟩
  | engine | rstLow | rstHigh => trivial

theorem serve_write {off : Nat} {v : Word} {s : State} (hr : s.rstN = true) (hc : (Event.write off 4 v).Carried) :
    serve (.write off 4 v) s = writeReg v s (regAt off) := by
  obtain ⟨-, h4, hlt⟩ := hc
  rw [serve, if_pos hr, hostWrite_carried off v s h4 hlt]

/-- Each way of `Served` is what the service of a carried event does. -/
theorem serve_of_served {e : Event} {s t : State} (h : Served e s t) (hc : s.rstN = true → e.Carried) :
    serve e s = .next t := by
  cases h with
  | read off _ hr h4 hlt => rw [serve, if_pos hr, hostRead_carried off s h4 hlt]
  | status v _ hr => exact serve_write hr (hc hr)
  | enables v _ hr hv =>
    rw [serve_write hr (hc hr), regAt_ctrl, writeReg, writeCtrl, if_neg (ne_true_of_eq_false hv)]
  | softReset v _ hr hv => rw [serve_write hr (hc hr), regAt_ctrl, writeReg, writeCtrl, if_pos hv]
  | accepted v i _ hr hs hd hl =>
    rw [serve_write hr (hc hr), regAt_cmd, writeReg, writeCmd_ok hs hd, exec_accepted hs hl]
  | refused v low e _ hr hs hw =>
    rw [serve_write hr (hc hr), regAt_cmd, writeReg]
    obtain ⟨i, hd, rfl, he⟩ | ⟨⟨x, hd⟩, rfl, rfl⟩ := hw
    · rw [writeCmd_ok hs hd, exec_refused hs he]
    · exact writeCmd_error hs hd
  | stored off r v _ hr hs hreg => rw [serve_write hr (hc hr), hreg, writeReg, writeOperand_idle r v hs]
  | locked off v _ hr hs hreg =>
    rw [serve_write hr (hc hr)]
    obtain hreg | ⟨r, hreg⟩ := hreg
    · rw [hreg, writeReg, writeCmd_busy v s hs]
    · rw [hreg, writeReg, writeOperand_busy r v hs]
  | readOnly off v _ hr hreg =>
    rw [serve_write hr (hc hr)]
    obtain hreg | hreg | ⟨r, hreg⟩ := hreg
    all_goals rw [hreg, writeReg]
  | completed i _ hr hs => rw [serve, if_pos hr, engineStep, hs]; exact exec_run i s hs
  | nothingToDo _ hr hs => rw [serve, if_pos hr, engineStep, hs]
  | inReset _ _ hr hl hh =>
    cases e with
    | read | write | engine => rw [serve, if_neg (ne_true_of_eq_false hr)]
    | rstLow => exact absurd rfl hl
    | rstHigh => exact absurd rfl hh
  | resetLow => rfl
  | resetHigh _ hr => exact serve_rstHigh_of_low hr
  | released _ hr => rw [serve, releaseReset, if_pos hr]

/-! ### The stored key -/

/-- `s` with the key words `k` in its key buffer. -/
def State.withKey (s : State) (k : Vector Word 16) : State := { s with ops := { s.ops with key := k } }

theorem sameButKey_iff (s t : State) : SameButKey s t ↔ ∃ k, t = s.withKey k :=
  ⟨fun h => ⟨_, h⟩, fun ⟨_, h⟩ => h ▸ rfl⟩

/-- No read shows the key buffer (R25). -/
theorem readReg_withKey (s : State) (k : Vector Word 16) (r : Reg) : readReg (s.withKey k) r = readReg s r := by
  cases r with
  | operand q => cases q <;> rfl
  | id | cmd | status | ctrl | result | reserved => rfl

theorem checksOf_withKey (s : State) (k : Vector Word 16) (i : Instr) :
    checksOf i (s.withKey k).ops = checksOf i s.ops := by
  cases i <;> rfl

theorem legal_withKey (s : State) (k : Vector Word 16) (i : Instr) :
    (s.withKey k).ops.Legal i ↔ s.ops.Legal i := by
  rw [← checksOf_eq_none_iff, checksOf_withKey, checksOf_eq_none_iff]

/-- A store over another key leaves another key at most (R96). -/
theorem exists_put_withKey (s : State) (k : Vector Word 16) (v : Word) (r : OperandReg) :
    ∃ k', ({ s.withKey k with ops := (s.withKey k).ops.put v r } : State)
      = ({ s with ops := s.ops.put v r } : State).withKey k' := by
  refine ⟨((s.withKey k).ops.put v r).key, ?_⟩
  cases r <;> rfl

/-- Whatever is served, but for the completion of a command that uses the key, is served alike over another key, and the
key words are all that differs after it (R25). -/
theorem Served.withKey {e : Event} {s t : State} (h : Served e s t) (k : Vector Word 16)
    (hkey : ∀ i : Instr, s.seq = .run i → e = .engine → i = .clear) :
    ∃ k', Served e (s.withKey k) (t.withKey k') := by
  cases h with
  | read off _ hr h4 hlt =>
    have hread := Served.read off (s.withKey k) hr h4 hlt
    rw [readReg_withKey] at hread
    exact ⟨k, hread⟩
  | status v _ hr => exact ⟨k, .status v (s.withKey k) hr⟩
  | enables v _ hr hv => exact ⟨k, .enables v (s.withKey k) hr hv⟩
  | softReset v _ hr hv => exact ⟨_, .softReset v (s.withKey k) hr hv⟩
  | accepted v i _ hr hs hd hl => exact ⟨k, .accepted v i (s.withKey k) hr hs hd ((legal_withKey s k i).mpr hl)⟩
  | refused v low e _ hr hs hw =>
    refine ⟨k, .refused v low e (s.withKey k) hr hs ?_⟩
    simpa only [checksOf_withKey] using hw
  | stored off r v _ hr hs hreg =>
    obtain ⟨k', hk'⟩ := exists_put_withKey s k v r
    exact ⟨k', hk' ▸ .stored off r v (s.withKey k) hr hs hreg⟩
  | locked off v _ hr hs hreg => exact ⟨k, .locked off v (s.withKey k) hr hs hreg⟩
  | readOnly off v _ hr hreg => exact ⟨k, .readOnly off v (s.withKey k) hr hreg⟩
  | completed i _ hr hs =>
    obtain rfl := hkey i hs rfl
    exact ⟨_, .completed .clear (s.withKey k) hr hs⟩
  | nothingToDo _ hr hs => exact ⟨k, .nothingToDo (s.withKey k) hr hs⟩
  | inReset _ _ hr hl hh => exact ⟨k, .inReset e (s.withKey k) hr hl hh⟩
  | resetLow => exact ⟨_, .resetLow (s.withKey k)⟩
  | resetHigh _ hr => exact ⟨_, .resetHigh (s.withKey k) hr⟩
  | released _ hr => exact ⟨k, .released (s.withKey k) hr⟩

theorem nextEvent_withKey (s : State) (k : Vector Word 16) :
    nextEvent (s.withKey k) = ((nextEvent s).1, (nextEvent s).2.withKey k) := by
  obtain ⟨seq, status, ctrl, ops, res, rstN, inputs, returned⟩ := s
  cases inputs <;> rfl

/-- A step that serves no completion of a command that uses the key goes alike over another key. -/
theorem step_withKey {s s' : State} (hstep : step s = .next s') (k : Vector Word 16)
    (hkey : ∀ i : Instr, s.seq = .run i → (nextEvent s).1 = .engine → i = .clear) :
    ∃ k', step (s.withKey k) = .next (s'.withKey k') := by
  have hseq : (nextEvent s).2.seq = s.seq := by rw [nextEvent_state]
  obtain ⟨k', hserved⟩ := (serve_served hstep).withKey k (hseq ▸ hkey)
  have hserve := serve_of_served hserved fun hr => carried_of_serve (s := (nextEvent s).2) hr hstep
  refine ⟨k', ?_⟩
  rw [step, nextEvent_withKey]
  exact hserve

/-- The completion of `VERIFY` over another key, with the same verdict, differs in the key only. -/
theorem concluded_withKey (m : Bool) (s : State) (k : Vector Word 16) :
    concluded m (s.withKey k) = (concluded m s).withKey k := rfl

/-- Without its verdict, the completion of `VERIFY` is the same for every verdict. -/
theorem concluded_unmatched (m : Bool) (s : State) :
    { concluded m s with status := { (concluded m s).status with matched := false } } = concluded false s := rfl

theorem observe_withKey (s : State) (k : Vector Word 16) : observe (s.withKey k) = observe s := rfl

/-- Settles O55: a step over another key shows the same, because no way of serving an event but a completion looks at the
key words; and the completion of `VERIFY` puts them into the verdict only. -/
theorem keyIsNeverReadBack : Obligations.KeyIsNeverReadBack := by
  refine ⟨fun s t s' hst hkey hstep => ?_, fun s t hst hs => ?_⟩
  · obtain ⟨k, rfl⟩ := (sameButKey_iff s t).mp hst
    obtain ⟨k', hstep'⟩ := step_withKey hstep k hkey
    exact ⟨_, hstep', (sameButKey_iff _ _).mpr ⟨k', rfl⟩, (observe_withKey s' k').symm⟩
  · obtain ⟨k, rfl⟩ := (sameButKey_iff s t).mp hst
    refine ⟨_, _, exec_run .verify s hs, exec_run .verify (s.withKey k) hs, (sameButKey_iff _ _).mpr ⟨k, ?_⟩⟩
    rw [finish_effectOf_verify, finish_effectOf_verify, concluded_unmatched, concluded_unmatched, concluded_withKey]

/-! ## Steps, runs and the interrupt output -/

/-! ### One step by its event -/

theorem serve_engine_run {s : State} {i : Instr} (hr : s.rstN = true) (hs : s.seq = .run i) :
    serve .engine s = exec i s := by
  rw [serve, if_pos hr, engineStep, hs]

/-- With no command in flight the engine has no step, whether or not the block is in reset (R7). -/
theorem serve_engine_idle {s : State} (hs : s.seq = .idle) : serve .engine s = .next s := by
  rw [serve, engineStep, hs]
  split_ifs <;> rfl

/-- A `CMD` write of a legal word to an idle block is its command (R85). -/
theorem serve_commandWrite {s : State} {w : Word} {i : Instr} (hr : s.rstN = true) (hs : s.seq = .idle)
    (hd : decode w = .ok i) : serve (.write 0x04 4 w) s = exec i s := by
  rw [serve_write hr ⟨rfl, rfl, by decide⟩, regAt_cmd, writeReg, writeCmd_ok hs hd]

/-- Settles O6: the pending write is taken from the list and served as the command. -/
theorem stepRunsTheDecodedCommand : Obligations.StepRunsTheDecodedCommand := by
  intro s w i rest hr hs hin hd _
  rw [step_cons s _ rest hin]
  exact serve_commandWrite (s := { s with inputs := rest }) hr hs hd

/-- Settles O7: pending or not, the event served is the engine's. -/
theorem engineStepRunsTheCommandInFlight : Obligations.EngineStepRunsTheCommandInFlight := by
  refine fun s i hr hs => ⟨fun hin => ?_, fun rest hin => ?_⟩
  · rw [step_nil s hin, serve_engine_run hr hs]
  · rw [step_cons s _ rest hin]
    exact serve_engine_run (s := { s with inputs := rest }) hr hs

/-- Settles O8: while the pin is released, serving an access is performing it. -/
theorem pendingAccessIsServedNext : Obligations.PendingAccessIsServedNext := by
  refine fun s rest hr => ⟨fun off n hin => ?_, fun off n v hin => ?_⟩
  · rw [step_cons s _ rest hin, serve, if_pos hr]
  · rw [step_cons s _ rest hin, serve, if_pos hr]

/-- Settles O9: the word placed is the command's encoding, written to an idle block out of reset. -/
theorem placedWordIsRunNext : Obligations.PlacedWordIsRunNext := by
  intro s i
  have hword : BitVec.ofNat 32 ((encode i).toNat % 2 ^ 32) = encode i := by
    rw [Nat.mod_eq_of_lt (encode i).isLt, BitVec.ofNat_toNat, BitVec.setWidth_eq]
  rw [State.withFetchWord, step_cons _ _ s.inputs rfl, hword]
  exact serve_commandWrite rfl rfl (decode_encode i)

/-- Settles O45: the two checks of an access, in their order, for a read and for a write. -/
theorem otherAccessesStopByName : Obligations.OtherAccessesStopByName := by
  refine fun s off n v => ⟨fun hbad => ?_, fun hn h4 hout => ?_⟩
  · have ht : isTransaction off n = false := by
      rw [← Bool.not_eq_true, isTransaction_iff]
      omega
    rw [hostRead, hostWrite, if_pos ht, if_pos ht]
    exact ⟨rfl, rfl⟩
  · have ht : ¬ isTransaction off n = false := by simp [isTransaction_iff, hn, h4]
    have hb : inBlock off = false := by
      rw [← Bool.not_eq_true, inBlock_iff]
      omega
    rw [hostRead, hostWrite, if_neg ht, if_neg ht, if_pos hb, if_pos hb]
    exact ⟨rfl, rfl⟩

/-- Settles O48: every agent but the reset source asks for the pin first. -/
theorem nothingIsServedWhileInReset : Obligations.NothingIsServedWhileInReset := by
  intro s hr
  have hlow : ¬ s.rstN = true := ne_true_of_eq_false hr
  exact ⟨fun off n => if_neg hlow, fun off n v => if_neg hlow, if_neg hlow⟩

/-! ### Carried accesses -/

theorem nextEvent_carried {s : State} (hc : s.InputsCarried) : (nextEvent s).1.Carried := by
  cases hin : s.inputs with
  | nil =>
    rw [nextEvent_nil s hin]
    trivial
  | cons e rest =>
    rw [nextEvent_cons s e rest hin]
    exact hc e (by simp [hin])

/-- Settles O46: a carried event is always served, and serving it leaves the rest of the list alone. -/
theorem carriedAccessesNeverStopTheMachine : Obligations.CarriedAccessesNeverStopTheMachine := by
  intro s hc
  obtain ⟨t, hstep, hrest⟩ := serve_next _ (nextEvent s).2 (nextEvent_carried hc)
  have hin : t.inputs = s.inputs.tail := by rw [hrest, nextEvent_state]
  exact ⟨t, hstep, fun e he => hc e (List.mem_of_mem_tail (hin ▸ he)), hin⟩

/-! ### A command in flight -/

/-- What a served event leaves alone while a command stays in flight (R86, R97). -/
theorem Served.operands_hold {e : Event} {s t : State} {i : Instr} (h : Served e s t) (hs : s.seq = .run i)
    (ht : t.seq = .run i) :
    t.ops = s.ops ∧ t.res = s.res ∧ t.status.matched = s.status.matched ∧ t.status.lastOp = s.status.lastOp := by
  cases h with
  | accepted _ _ _ _ hidle | refused _ _ _ _ _ hidle | stored _ _ _ _ _ hidle => exact nomatch hidle.symm.trans hs
  | completed | softReset | resetLow | resetHigh => exact nomatch ht
  | read | status | enables | locked | readOnly | nothingToDo | inReset | released => exact ⟨rfl, rfl, rfl, rfl⟩

/-- Settles O52: taking the event from the list leaves these alone as well. -/
theorem operandsHoldWhileInFlight : Obligations.OperandsHoldWhileInFlight :=
  fun _ _ _ hs hstep ht => (step_served hstep).operands_hold hs ht

/-- An event that resets the block neither by the pin nor by `CTRL`. -/
def Event.ResetsNothing (e : Event) : Prop :=
  e ≠ .rstLow ∧ e ≠ .rstHigh ∧ ∀ (off n : Nat) (v : Word), e = .write off n v → off = 0x0C → v.getLsbD 31 = false

/-- A command in flight goes on, out of reset as before, or ends, with `DONE` unless the event is a reset (R15). -/
theorem Served.inFlight_cases {e : Event} {s t : State} {i : Instr} (h : Served e s t) (hs : s.seq = .run i) :
    (t.seq = .run i ∧ t.rstN = s.rstN) ∨ (t.seq = .idle ∧ (e.ResetsNothing → t.status.done = true)) := by
  cases h with
  | accepted _ _ _ _ hidle | refused _ _ _ _ _ hidle | stored _ _ _ _ _ hidle => exact nomatch hidle.symm.trans hs
  | completed => exact .inr ⟨finish_seq _, fun _ => by rw [finish_status]⟩
  | softReset v _ _ hv =>
    exact .inr ⟨resetBlock_seq s, fun hno => absurd ((hno.2.2 _ _ v rfl rfl).symm.trans hv) (by decide)⟩
  | resetLow => exact .inr ⟨assertReset_seq s, fun hno => absurd rfl hno.1⟩
  | resetHigh => exact .inr ⟨resetBlock_seq s, fun hno => absurd rfl hno.2.1⟩
  | read | status | enables | locked | readOnly | nothingToDo | inReset | released => exact .inl ⟨hs, rfl⟩

theorem run_one {s t : State} (h : step s = .next t) : Sys2Proof.core.run 1 s = .next t :=
  core_run_succ Sys2Proof.core (k := 0) h

/-- A command in flight ends within the events pending and one step of the engine more. -/
theorem exists_run_idle {i : Instr} (l : List Event) {s : State} (hin : s.inputs = l) (hr : s.rstN = true)
    (hc : s.InputsCarried) (hs : s.seq = .run i) :
    ∃ (n : Nat) (t : State), n ≤ l.length + 1 ∧ Sys2Proof.core.run n s = .next t ∧ t.seq = .idle
      ∧ ((∀ e ∈ l, e.ResetsNothing) → t.status.done = true) := by
  induction l generalizing s with
  | nil =>
    have hstep : step s = .next (finish (effectOf i s)) := by
      rw [step_nil s hin, serve_engine_run hr hs, exec_run i s hs]
    exact ⟨1, _, Nat.le_refl 1, run_one hstep, finish_seq _, fun _ => by rw [finish_status]⟩
  | cons e rest ih =>
    obtain ⟨t, hstep, hct, hint⟩ := carriedAccessesNeverStopTheMachine s hc
    have hserved := step_served hstep
    rw [nextEvent_cons s e rest hin] at hserved
    obtain ⟨ht, hrt⟩ | ⟨ht, hdone⟩ := hserved.inFlight_cases hs
    · obtain ⟨n, u, hn, hrun, hu, hdone⟩ := ih (hint.trans (by rw [hin, List.tail_cons])) (hrt.trans hr) hct ht
      refine ⟨n + 1, u, Nat.succ_le_succ hn, (core_run_succ Sys2Proof.core hstep).trans hrun, hu, fun hno => ?_⟩
      exact hdone fun e he => hno e (List.mem_cons_of_mem _ he)
    · exact ⟨1, t, Nat.le_add_left 1 _, run_one hstep, ht, fun hno => hdone (hno e List.mem_cons_self)⟩

/-- Settles O54: by induction on the events pending; with none left the engine completes the command. -/
theorem commandInFlightAlwaysEnds : Obligations.CommandInFlightAlwaysEnds :=
  fun s _ hr hc hs => exists_run_idle s.inputs rfl hr hc hs

/-! ### An idle block -/

/-- An idle block answers an event that is no transaction by staying as it is, unless the pin moves (R117). -/
theorem serve_idle_waits {e : Event} {s : State} (he : ¬ e.IsTransaction) (hs : s.seq = .idle) :
    ∃ t, serve e s = .next t ∧ t.seq = .idle ∧ t.inputs = s.inputs ∧ (e ≠ .rstLow → e ≠ .rstHigh → t = s) := by
  cases e with
  | read | write => exact absurd trivial he
  | engine => exact ⟨s, serve_engine_idle hs, hs, rfl, fun _ _ => rfl⟩
  | rstLow => exact ⟨_, rfl, assertReset_seq s, assertReset_inputs s, fun hlow _ => absurd rfl hlow⟩
  | rstHigh =>
    obtain hr | hr := Bool.eq_false_or_eq_true s.rstN
    · exact ⟨s, by rw [serve, releaseReset, if_pos hr], hs, rfl, fun _ _ => rfl⟩
    · exact ⟨_, serve_rstHigh_of_low hr, resetBlock_seq s, resetBlock_inputs s, fun _ hhigh => absurd rfl hhigh⟩

/-- Once the host is done, what comes next is the engine's step or the pin's (R132). -/
theorem nextEvent_not_transaction {s : State} (hd : s.HostDone) : ¬ (nextEvent s).1.IsTransaction := by
  cases hin : s.inputs with
  | nil =>
    rw [nextEvent_nil s hin]
    exact id
  | cons e rest =>
    rw [nextEvent_cons s e rest hin]
    exact hd e (by simp [hin])

/-- Settles O53: the next event of a final state is no transaction, so the idle block waits through it. -/
theorem idleBlockWaits : Obligations.IdleBlockWaits := by
  rintro s ⟨hd, hs⟩
  refine ⟨fun hin => (step_nil s hin).trans (serve_engine_idle hs), ?_⟩
  have hs' : (nextEvent s).2.seq = .idle := by rw [nextEvent_state, hs]
  obtain ⟨t, hstep, ht, hrest, hsame⟩ := serve_idle_waits (nextEvent_not_transaction hd) hs'
  have hin : t.inputs = s.inputs.tail := by rw [hrest, nextEvent_state]
  rw [nextEvent_state] at hsame
  exact ⟨t, hstep, ⟨fun e he => hd e (List.mem_of_mem_tail (hin ▸ he)), ht⟩, hsame⟩

/-- Settles O58: a state is final when nothing but `SEQ` could keep it from being so, and an error is shown in `IDLE`
only. -/
theorem runEndsIdleOrRefused : Obligations.RunEndsIdleOrRefused := by
  refine ⟨fun s hs hf => hs hf.2, fun s hd => ⟨fun hs => ⟨hd, hs⟩, fun hinv herr => ?_⟩⟩
  obtain ⟨-, hs, -⟩ := hinv.errorSet herr
  exact ⟨hd, hs⟩

/-! ### The interrupt output -/

theorem irq_iff (s : State) :
    irq s = true ↔ (s.status.done = true ∧ s.ctrl.ieDone = true) ∨ (s.status.error = true ∧ s.ctrl.ieError = true) := by
  simp only [irq, Bool.or_eq_true, Bool.and_eq_true]

theorem hostWrite_status (v : Word) (s : State) : hostWrite 0x08 4 v s = .next (writeStatus v s) := by
  rw [hostWrite_carried 0x08 v s (by decide) (by decide), regAt_status, writeReg]

theorem hostWrite_enables {v : Word} (hv : v.getLsbD 31 = false) (s : State) :
    hostWrite 0x0C 4 v s = .next { s with ctrl := ctrlOf v } :=
  (ctrlWriteStoresOrResets s v).2 hv

/-- With both flags clear no enable raises `irq` (R111). -/
theorem irq_of_clear {s : State} (hdone : s.status.done = false) (herr : s.status.error = false) : irq s = false := by
  rw [irq, hdone, herr]
  rfl

/-- Settles O44: `irq` is read off the flags and the enables after each of the writes and after a completion; a busy
block has both flags clear. -/
theorem interruptFollowsFlagsAndEnables : Obligations.InterruptFollowsFlagsAndEnables := by
  refine fun s h => ⟨irq_iff s, ?_, fun i hs => ?_, ?_, ?_, ?_⟩
  · rintro ⟨hdone, herr⟩
    obtain ⟨-, -, hclear, -⟩ := h.errorSet herr
    exact Bool.false_ne_true (hclear.symm.trans hdone)
  · obtain ⟨hdone, herr, -⟩ := h.busyClear (by rw [hs]; nofun)
    refine ⟨irq_of_clear hdone herr, _, exec_run i s hs, ?_⟩
    rw [irq, finish_status, finish_ctrl, effectOf_error, effectOf_ctrl, herr, Bool.true_and, Bool.false_and,
      Bool.or_false]
  · refine ⟨_, hostWrite_status _ s, irq_of_clear ?_ ?_, rfl⟩ <;> exact Bool.and_false _
  · refine ⟨_, hostWrite_enables (by decide) s, ?_, rfl⟩
    simp [irq, ctrlOf]
  · refine ⟨_, hostWrite_enables (by decide) s, rfl, ?_⟩
    simp [irq, ctrlOf]

/-! ## The pure functions and the engine (spec/40_counter_sha1_hmac.md, 42_time_window_compare.md) -/

/-! ### Padding and the padded key -/

/-- Settles O24: `padZeros` is the least zero count, and the length follows from it. -/
theorem paddingIsLeastAndAligned : Obligations.PaddingIsLeastAndAligned := by
  intro m
  have hz := padZeros_spec m.length
  refine ⟨padZeros m.length, hz, padZeros_least m.length, rfl, ?_, by rw [pad_length]⟩
  rw [pad_length]
  omega

/-- Byte strings are equal when they have one length and agree byte by byte. -/
theorem ext_byteAt {s t : List Byte} (hlen : s.length = t.length) (h : ∀ i < s.length, byteAt s i = byteAt t i) :
    s = t := by
  refine List.ext_getElem hlen fun i hs ht => ?_
  have hi := h i hs
  rwa [byteAt, byteAt, List.getD_eq_getElem _ _ hs, List.getD_eq_getElem _ _ ht] at hi

/-- Settles O29: below `KEYLEN` the padded key's bytes are the layout's, which are the secret's; above, both are zero. -/
theorem secretLayoutGivesThePaddedKey : Obligations.SecretLayoutGivesThePaddedKey := by
  intro o k _ hmax hlen hlayout
  refine ext_byteAt (by simp; omega) fun i hi => ?_
  rw [paddedKey_length] at hi
  rw [byteAt_paddedKey o hi, hlen, byteAt]
  split_ifs with hk
  · rw [keyByte_eq, hlayout i hk, List.getD_append _ _ _ _ hk, byteAt]
  · rw [List.getD_append_right _ _ _ _ (by omega), List.getD_replicate]
    omega

/-! ### The candidates -/

/-- Settles O35: the candidates are a map over a range; one leaves the range of counters exactly when the first or the
last does. -/
theorem candidatesAreNotWrapped : Obligations.CandidatesAreNotWrapped := by
  intro base w _
  refine ⟨candidates_length base w, fun j hj => ⟨candidateAt base w j, ?_, ?_, ?_⟩, ?_⟩
  · simp [candidates, show j < 2 * w + 1 by omega]
  · rw [candidateAt_cand]
    omega
  · exact candidateAt_inRange base w j
  · have hlt := base.isLt
    constructor
    · rintro ⟨c, hc, hout⟩
      obtain ⟨j, hj, rfl⟩ := (mem_candidates base w c).mp hc
      rw [← Bool.not_eq_true, candidateAt_inRange, candidateAt_cand] at hout
      omega
    · have out {j : Nat} (hj : j ≤ 2 * w) (h : base.toNat + j < w ∨ 2 ^ 64 ≤ base.toNat + j - w) :
          ∃ c ∈ candidates base w, c.inRange = false := by
        refine ⟨_, (mem_candidates base w _).mpr ⟨j, hj, rfl⟩, ?_⟩
        rw [← Bool.not_eq_true, candidateAt_inRange, candidateAt_cand]
        omega
      rintro (hlow | hhigh)
      · exact out (j := 0) (by omega) (by omega)
      · exact out (j := 2 * w) (by omega) (by omega)

/-! ### The comparator -/

/-- The comparator's mask keeps the upper half of a register, which is all of `TOKEN1` that is implemented (R27, R81). -/
theorem and_mask_eq_zero_iff (x : Word) : x &&& 0xFFFF0000#32 = 0#32 ↔ x >>> 16 = 0#32 := by
  have hmask : x &&& 0xFFFF0000#32 = x >>> 16 <<< 16 := (BitVec.shiftLeft_ushiftRight (x := x) (n := 16)).symm
  have hlt := x.isLt
  simp only [hmask, BitVec.toNat_eq, BitVec.toNat_shiftLeft, BitVec.toNat_ushiftRight, Nat.shiftLeft_eq,
    Nat.shiftRight_eq_div_pow, BitVec.toNat_ofNat]
  omega

theorem shiftRight_eq_iff_take (v w : Word) : v >>> 16 = w >>> 16 ↔ (be32 v).take 2 = (be32 w).take 2 := by
  have hv := v.isLt
  have hw := w.isLt
  simp only [be32, List.take_succ_cons, List.take_zero, List.cons.injEq, and_true, BitVec.toNat_eq,
    BitVec.toNat_ushiftRight, BitVec.extractLsb'_toNat, Nat.shiftRight_eq_div_pow]
  omega

theorem xor_and_mask_eq_zero_iff (v w : Word) :
    (v ^^^ w) &&& 0xFFFF0000#32 = 0#32 ↔ (be32 v).take 2 = (be32 w).take 2 := by
  rw [and_mask_eq_zero_iff, BitVec.ushiftRight_xor_distrib, BitVec.xor_eq_zero_iff, shiftRight_eq_iff_take]

/-- The comparator is string equality on six-byte strings (R81). -/
theorem cteq6_str_iff (len tok0 tok1 : Word) {str : List Byte} (h : str.length = 6) :
    cteq6 len tok0 tok1 (str0 str) (str1 str) = true ↔ len = 6#32 ∧ be32 tok0 ++ (be32 tok1).take 2 = str := by
  rw [cteq6_iff, xor_and_mask_eq_zero_iff]
  conv_rhs => rw [← str_readback str h]
  refine and_congr_right fun _ => ⟨fun ⟨h0, h1⟩ => by rw [h0, h1], fun heq => ?_⟩
  obtain ⟨h0, h1⟩ := List.append_inj heq rfl
  exact ⟨be32_injective h0, h1⟩

/-- Settles O36: the two registers of a six-byte string hold all of it. -/
theorem comparatorIsStringEquality : Obligations.ComparatorIsStringEquality :=
  fun len tok0 tok1 _ h => cteq6_str_iff len tok0 tok1 h

theorem equals_hotp_iff (t : Token) (k0 : List Byte) (c : DWord) :
    t.equals (hotp k0 c).str = true ↔
      t.len = 6#32 ∧ be32 t.tok0 ++ (be32 t.tok1).take 2 = (hotp k0 c).str :=
  cteq6_str_iff _ _ _ (hotp_str_length k0 c)

/-! ### The engine -/

section Work

variable {α β : Type}

@[simp] theorem Work.free_ops (v : α) : (Work.free v).ops = [] := rfl
@[simp] theorem Work.free_val (v : α) : (Work.free v).val = v := rfl
@[simp] theorem Work.unit_ops (op : EngineOp) (v : α) : (Work.unit op v).ops = [op] := rfl
@[simp] theorem Work.unit_val (op : EngineOp) (v : α) : (Work.unit op v).val = v := rfl
@[simp] theorem Work.andThen_ops (x : Work α) (f : α → Work β) : (x.andThen f).ops = x.ops ++ (f x.val).ops := rfl
@[simp] theorem Work.andThen_val (x : Work α) (f : α → Work β) : (x.andThen f).val = (f x.val).val := rfl

end Work

theorem keyWords_eq (o : Operands) : o.keyWords = blockWords o.paddedKey := rfl

/-- The fixed units compute the `HOTP` function (R71, R77). -/
theorem hotpWork_val (o : Operands) (c : DWord) : (hotpWork o.keyWords c).val = hotp o.paddedKey c := by
  rw [hotp, hmacSha1_be64 (paddedKey_length o), keyWords_eq, truncate]
  simp only [hotpWork, Work.andThen_val, Work.unit_val, Work.free_val]

theorem candidateWork_val (o : Operands) (t : Token) (c : Candidate) :
    (candidateWork o.keyWords t c).val = candidateMatches o.paddedKey t c := by
  rw [candidateWork, Work.andThen_val, Work.unit_val, hotpWork_val, candidateMatches]

/-- The walk over the candidates is the OR of their comparisons (R82). -/
theorem walkWork_val (o : Operands) (t : Token) (cs : List Candidate) (m : Bool) :
    (walkWork o.keyWords t cs m).val = cs.foldl (fun m c => m || candidateMatches o.paddedKey t c) m := by
  induction cs generalizing m with
  | nil => rfl
  | cons c cs ih => rw [walkWork, Work.andThen_val, ih, candidateWork_val, List.foldl_cons]

/-- Each command's work takes the same values through the units as its effect. -/
theorem engineWork_val (i : Instr) (s : State) : (engineWork i s).val = effectOf i s := by
  cases i with
  | hotp => rw [engineWork, Work.andThen_val, Work.free_val, hotpWork_val, effectOf, hotpEffect]
  | totp =>
    rw [engineWork, Work.andThen_val, Work.unit_val, Work.andThen_val, Work.free_val, hotpWork_val, effectOf,
      totpEffect_eq]
  | verify =>
    rw [engineWork, Work.andThen_val, Work.unit_val, Work.andThen_val, Work.free_val, walkWork_val, effectOf,
      verifyEffect, windowMatch]
    rfl
  | clear => rfl

/-- Settles O56: a completion is the end put to the effect the engine computes. -/
theorem engineComputesTheCommands : Obligations.EngineComputesTheCommands := by
  intro s i hs
  rw [exec_run i s hs, engineWork_val]

/-- The operations of one `HOTP` function: four compressions, one truncation, one rendering (R131). -/
def hotpOps : List EngineOp := List.replicate 4 .compression ++ [.truncation, .rendering]

theorem hotpWork_ops (k0w : List Word) (c : DWord) : (hotpWork k0w c).ops = hotpOps := by
  simp only [hotpWork, hmacWork, compressUnit, Work.andThen_ops, Work.unit_ops, Work.free_ops]
  rfl

theorem candidateWork_ops (k0w : List Word) (t : Token) (c : Candidate) :
    (candidateWork k0w t c).ops = hotpOps ++ [.comparison] := by
  rw [candidateWork, Work.andThen_ops, hotpWork_ops, Work.unit_ops]

/-- The walk does one candidate's work for each candidate, whatever has matched (R82, R131). -/
theorem walkWork_ops (k0w : List Word) (t : Token) (cs : List Candidate) (m : Bool) :
    (walkWork k0w t cs m).ops = (List.replicate cs.length (hotpOps ++ [.comparison])).flatten := by
  induction cs generalizing m with
  | nil => rfl
  | cons c cs ih =>
    rw [walkWork, Work.andThen_ops, candidateWork_ops, ih, List.length_cons, List.replicate_succ, List.flatten_cons]

theorem engineWork_hotp_ops (s : State) : (engineWork .hotp s).ops = hotpOps := by
  rw [engineWork, Work.andThen_ops, Work.free_ops, List.append_nil, hotpWork_ops]

theorem engineWork_totp_ops (s : State) : (engineWork .totp s).ops = .divide :: hotpOps := by
  rw [engineWork, Work.andThen_ops, Work.unit_ops, Work.andThen_ops, Work.free_ops, List.append_nil, hotpWork_ops,
    List.singleton_append]

theorem engineWork_verify_ops (s : State) :
    (engineWork .verify s).ops =
      .divide :: (List.replicate (2 * s.ops.window.toNat + 1) (hotpOps ++ [.comparison])).flatten := by
  rw [engineWork, Work.andThen_ops, Work.unit_ops, Work.andThen_ops, Work.free_ops, List.append_nil, walkWork_ops,
    candidates_length, List.singleton_append]

/-- Settles O57: the units list themselves in an order no value enters; only the number of candidates varies. -/
theorem engineWorkIsDataIndependent : Obligations.EngineWorkIsDataIndependent := by
  refine ⟨fun s t i hw => ?_, fun s => ?_⟩
  · cases i with
    | hotp => rw [engineWork_hotp_ops, engineWork_hotp_ops]
    | totp => rw [engineWork_totp_ops, engineWork_totp_ops]
    | verify => rw [engineWork_verify_ops, engineWork_verify_ops, hw]
    | clear => rfl
  · rw [engineWork_hotp_ops]
    exact ⟨rfl, engineWork_totp_ops s, engineWork_verify_ops s, rfl⟩

/-! ### Known answers -/

/-- Settles O26: each message pads to one block, whose compression the kernel computes. -/
theorem sha1OfTheKnownMessages : Obligations.Sha1OfTheKnownMessages := by
  constructor <;> decide +kernel

/-- The padded key of the source's secret "12345678901234567890" (95_test_vectors.md section 1). -/
def sourceKey : List Byte :=
  [0x31#8, 0x32#8, 0x33#8, 0x34#8, 0x35#8, 0x36#8, 0x37#8, 0x38#8, 0x39#8, 0x30#8, 0x31#8, 0x32#8, 0x33#8, 0x34#8,
   0x35#8, 0x36#8, 0x37#8, 0x38#8, 0x39#8, 0x30#8] ++ List.replicate 44 0x00#8

/-- The source's HMAC of counter 1 (95_test_vectors.md section 1). -/
theorem hmacSha1_sourceKey : hmacSha1 sourceKey (be64 1#64) =
    [0x75#8, 0xA4#8, 0x8A#8, 0x19#8, 0xD4#8, 0xCB#8, 0xE1#8, 0x00#8, 0x64#8, 0x4E#8, 0x8A#8, 0xC1#8, 0x39#8, 0x7E#8,
     0xEA#8, 0x74#8, 0x7A#8, 0x2D#8, 0x33#8, 0xAB#8] := by
  decide +kernel

/-- Settles O31: what remains after the source's HMAC is the truncation and the rendering of its 20 bytes. -/
theorem knownAnswerOfTheSource : Obligations.KnownAnswerOfTheSource := by
  change baseCounter 59#64 30#32 = 1#64 ∧ (hotp sourceKey 1#64).offset = 11 ∧ _
  rw [hotp, hmacSha1_sourceKey]
  decide +kernel

/-! ## The tables, the errors and the completions (spec/30_encoding.md, 60_exceptions.md, 43_commands.md) -/

/-! ### The tables -/

/-- Settles O1: seven words, decoded. -/
theorem decodeReadsTheOpcodeMap : Obligations.DecodeReadsTheOpcodeMap := by
  unfold Obligations.DecodeReadsTheOpcodeMap
  decide

/-- Settles O2: no command is ill-formed, and decoding inverts the encoder. -/
theorem decodeOfEncodeIsTheCommand : Obligations.DecodeOfEncodeIsTheCommand :=
  fun i _ => decode_encode i

theorem regAt_result (r : ResultReg) : regAt r.byteOffset = .result r := by
  cases r with
  | digest n => exact regAt_digest n
  | offset | trunc | codeVal | codeStr0 | codeStr1 => rfl

/-- Settles O5: the map by the kind of register. -/
theorem offsetMapIsTheRegisterMap : Obligations.OffsetMapIsTheRegisterMap :=
  ⟨regAt_operand, regAt_result, regAt_id, regAt_cmd, regAt_status, regAt_ctrl, fun _ => regAt_eq_reserved_iff⟩

/-! ### Acceptance and its errors -/

theorem hostWrite_cmd (w : Word) (s : State) : hostWrite 0x04 4 w s = writeCmd w s := by
  rw [hostWrite_carried 0x04 w s (by decide) (by decide), regAt_cmd, writeReg]

/-- A word is of no command, or the encoding of one (R50, R51). -/
theorem illegal_or_encode (w : Word) : (∀ i, w ≠ encode i) ∨ ∃ i, w = encode i := by
  by_cases h : ∃ i, w = encode i
  · exact .inr h
  · exact .inl (not_exists.mp h)

/-- A `CMD` write of a legal word in `IDLE` is the acceptance of its command (R85). -/
theorem writeCmd_encode {s : State} (hs : s.seq = .idle) (i : Instr) :
    writeCmd (encode i) s = .next (accept i (checksOf i s.ops) s) := by
  rw [writeCmd_ok hs (decode_encode i), exec_idle i s hs]

theorem opcodeField_encode (i : Instr) : opcodeField (encode i) = opcodeOf i := by
  rw [opcodeField_eq_setWidth, setWidth_encode]

/-- After acceptance `ERRCODE` names the error the checks found, and is 0 when they found none (R85). -/
theorem accept_errCode (i : Instr) (problem : Option Err) (s : State) :
    (accept i problem s).status.errCode = problem.elim 0#4 Err.code := by
  cases problem <;> rfl

theorem accept_error (i : Instr) (problem : Option Err) (s : State) :
    (accept i problem s).status.error = problem.isSome := by
  cases problem <;> rfl

/-- The check of `TIMESTEP` with the signed reading of R54: a legal step is a positive number (R103). -/
theorem timeStepError_eq_toInt (o : Operands) :
    timeStepError o = if ¬ 0 < o.timeStep.toInt then some .invalidArgument else none := by
  have hlegal : o.StepLegal ↔ 0 < o.timeStep.toInt := by
    have hlt := o.timeStep.isLt
    rw [Operands.StepLegal, BitVec.toInt_eq_toNat_cond]
    split_ifs <;> omega
  obtain ⟨h, he⟩ | ⟨h, he⟩ := timeStepError_cases o <;> rw [hlegal] at h <;> simp [he, h]

/-- The check of `WINDOW` with the signed reading of R54: a legal window is a number from 0 to 255 (R103). -/
theorem windowError_eq_toInt (o : Operands) :
    windowError o = if ¬ (0 ≤ o.window.toInt ∧ o.window.toInt ≤ 255) then some .invalidArgument else none := by
  have hlegal : o.WindowLegal ↔ 0 ≤ o.window.toInt ∧ o.window.toInt ≤ 255 := by
    have hlt := o.window.isLt
    rw [Operands.WindowLegal, BitVec.toInt_eq_toNat_cond]
    split_ifs <;> omega
  obtain ⟨h, he⟩ | ⟨h, he⟩ := windowError_cases o <;> rw [hlegal] at h <;> simp [he, h]

theorem keyError_eq_legal (o : Operands) :
    keyError o = if ¬ (1 ≤ o.keyLen.toNat ∧ o.keyLen.toNat ≤ 64) then some .invalidSecret else none := by
  obtain ⟨h, he⟩ | ⟨h, he⟩ := keyError_cases o <;> rw [Operands.KeyLegal] at h <;> simp [he, h]

/-- The error a command's checks find: the first in the order of R107. -/
theorem checksOf_eq_priority (i : Instr) (o : Operands) :
    checksOf i o =
      if (i = .totp ∨ i = .verify) ∧ ¬ 0 < o.timeStep.toInt then some .invalidArgument
      else if i = .verify ∧ ¬ (0 ≤ o.window.toInt ∧ o.window.toInt ≤ 255) then some .invalidArgument
      else if i ≠ .clear ∧ ¬ (1 ≤ o.keyLen.toNat ∧ o.keyLen.toNat ≤ 64) then some .invalidSecret
      else none := by
  cases i with
  | hotp => simp [checksOf, hotpChecks, keyError_eq_legal]
  | totp => simp [checksOf, totpChecks, timeStepError_eq_toInt, keyError_eq_legal, check_or]
  | verify =>
    simp [checksOf, verifyChecks, timeStepError_eq_toInt, windowError_eq_toInt, keyError_eq_legal, check_or]
  | clear => simp [checksOf, clearChecks]

theorem Err.code_cases (e : Err) : e.code = 1#4 ∨ e.code = 2#4 ∨ e.code = 3#4 := by
  cases e <;> decide

/-- Settles O11: an illegal word is refused by the decoder; the code a legal one raises is that of its checks; a busy block
raises nothing. -/
theorem errorsAreReportedByPriority : Obligations.ErrorsAreReportedByPriority := by
  intro s w
  by_cases hs : s.seq = .idle
  · obtain hw | ⟨i, rfl⟩ := illegal_or_encode w
    · refine ⟨_, (hostWrite_cmd w s).trans (writeCmd_illegal hs hw), fun _ => ?_, fun _ => ?_, fun hb => absurd hs hb⟩
      · rw [if_pos ⟨hw .hotp, hw .totp, hw .verify, hw .clear⟩]
        rfl
      · exact ⟨fun _ => Err.illegalCommand.code_range.1, fun _ => rfl⟩
    · refine ⟨_, (hostWrite_cmd _ s).trans (writeCmd_encode hs i), fun _ => ?_, fun _ => ?_, fun hb => absurd hs hb⟩
      · have hlegal : ¬ (i ≠ .hotp ∧ i ≠ .totp ∧ i ≠ .verify ∧ i ≠ .clear) := by cases i <;> decide
        simp only [encode_injective.eq_iff, encode_injective.ne_iff]
        rw [accept_errCode, checksOf_eq_priority, if_neg hlegal]
        split_ifs <;> rfl
      · rw [accept_error, accept_errCode]
        cases checksOf i s.ops with
        | none => decide
        | some e => simp [e.code_range.1]
  · exact ⟨_, (hostWrite_cmd w s).trans (writeCmd_busy w s hs), fun h => absurd h hs, fun h => absurd h hs, fun _ => rfl⟩

/-- A `CMD` write in `IDLE` that ends with `ERROR` set is a refusal of the word's opcode byte (R108). -/
theorem exists_refuse_of_error {w : Word} {s t : State} (hs : s.seq = .idle) (h : hostWrite 0x04 4 w s = .next t)
    (herr : t.status.error = true) : ∃ e, t = refuse (opcodeField w) e s := by
  rw [hostWrite_cmd] at h
  obtain hw | ⟨i, rfl⟩ := illegal_or_encode w
  · rw [writeCmd_illegal hs hw] at h
    exact ⟨_, (Host.Outcome.next.inj h).symm⟩
  · rw [writeCmd_encode hs i] at h
    obtain rfl := Host.Outcome.next.inj h
    rw [accept_error] at herr
    obtain ⟨e, he⟩ := Option.isSome_iff_exists.mp herr
    exact ⟨e, by rw [he, accept_some, opcodeField_encode]⟩

/-- Settles O12: a refusal writes the flags, `LASTOP` and the results. -/
theorem errorEntryTouchesNothingElse : Obligations.ErrorEntryTouchesNothingElse := by
  intro s t w hs h herr
  obtain ⟨e, rfl⟩ := exists_refuse_of_error hs h herr
  refine ⟨e.code_cases, hs, rfl, rfl, rfl, opcodeField_eq_setWidth w, rfl, rfl, rfl, rfl, rfl, rfl, fun hie => ?_⟩
  exact (irq_iff _).mpr (.inr ⟨rfl, hie⟩)

/-- Acceptance looks at a state only after its clearing, so states that clear alike take a `CMD` write alike (R85). -/
theorem writeCmd_congr {s t : State} (hs : s.seq = .idle) (h : ∀ low, beginCommand low t = beginCommand low s) (w : Word) :
    writeCmd w t = writeCmd w s := by
  have ht : t.seq = .idle := by rw [← beginCommand_seq 0#8 t, h, beginCommand_seq, hs]
  have hops : t.ops = s.ops := by rw [← beginCommand_ops 0#8 t, h, beginCommand_ops]
  obtain hw | ⟨i, rfl⟩ := illegal_or_encode w
  · rw [writeCmd_illegal hs hw, writeCmd_illegal ht hw, refuse, refuse, h]
  · rw [writeCmd_encode hs, writeCmd_encode ht, hops]
    cases checksOf i s.ops with
    | none => rw [accept_none, accept_none, h]
    | some e => rw [accept_some, accept_some, refuse, refuse, h]

/-- Settles O13: what stood in the flags and results before a `CMD` write in `IDLE` is cleared by it, so neither an error
standing there nor the refusal itself changes what the write does. -/
theorem errorReturnAndReissue : Obligations.ErrorReturnAndReissue := by
  refine fun s => ⟨fun v hv => ?_, fun w e c hs => ?_, fun w t hs h herr => ?_, fun v hv => ?_⟩
  · obtain ⟨-, he, hc⟩ | ⟨hv', -⟩ := clearFlags_error_cases v s.status
    · exact ⟨_, hostWrite_status v s, he, hc, rfl, rfl, rfl⟩
    · exact absurd (hv'.symm.trans hv) Bool.false_ne_true
  · rw [hostWrite_cmd, hostWrite_cmd]
    refine writeCmd_congr hs ?_ w
    exact fun _ => rfl
  · obtain ⟨e, rfl⟩ := exists_refuse_of_error hs h herr
    rw [← h, hostWrite_cmd, hostWrite_cmd]
    refine writeCmd_congr hs ?_ w
    exact fun _ => rfl
  · exact ⟨_, hostWrite_softReset hv s, rfl, rfl⟩

/-! ### What the completions have in common -/

/-- No completion but `CLEAR` changes the key buffer. -/
theorem effectOf_key {i : Instr} (hi : i ≠ .clear) (s : State) : (effectOf i s).ops.key = s.ops.key := by
  cases i with
  | clear => exact absurd rfl hi
  | hotp | totp | verify => rfl

/-- The operand registers a completion leaves, through the port: `HOTP` all, `TOTP` and `VERIFY` all but the counter,
`CLEAR` those it does not zero (R88 to R91). -/
theorem readOperand_effectOf {i : Instr} {q : OperandReg} (hcounter : q = .counterHi ∨ q = .counterLo → i = .hotp)
    (hclear : i = .clear → q = .timeStep ∨ q = .window) (s : State) :
    readOperand (effectOf i s).ops q = readOperand s.ops q := by
  cases i with
  | hotp => rfl
  | totp | verify =>
    cases q with
    | counterHi => exact nomatch hcounter (.inl rfl)
    | counterLo => exact nomatch hcounter (.inr rfl)
    | timeStep | window | timeHi | timeLo | keyLen | tokLen | token0 | token1 | key => rfl
  | clear => obtain rfl | rfl := hclear rfl <;> rfl

/-- Settles O18: register by register, a completion's effect leaves all but what its rule writes. -/
theorem completionFrame : Obligations.CompletionFrame := by
  intro s t i hs h
  rw [exec_run i s hs] at h
  obtain rfl := Host.Outcome.next.inj h
  refine ⟨fun r hstatus hresult hcounter hclear => ?_, fun hi => effectOf_key hi s, effectOf_wrIgn i s,
    effectOf_lastOp i s, effectOf_error i s, effectOf_errCode i s, fun hi => effectOf_matched hi s, effectOf_ctrl i s,
    effectOf_rstN i s, effectOf_inputs i s, effectOf_returned i s⟩
  cases r with
  | id | cmd | reserved => rfl
  | status => exact absurd rfl hstatus
  | ctrl => exact congrArg ctrlWord (effectOf_ctrl i s)
  | operand q =>
    exact readOperand_effectOf (fun hq => hcounter (hq.imp (congrArg _) (congrArg _))) (fun hi => hclear hi q rfl) s
  | result q => exact congrArg (Results.get · q) (effectOf_res (hresult q rfl) s)

/-! ### What commands read and write -/

@[simp] theorem accept_ops (i : Instr) (problem : Option Err) (s : State) : (accept i problem s).ops = s.ops := by
  cases problem <;> rfl
@[simp] theorem accept_ctrl (i : Instr) (problem : Option Err) (s : State) : (accept i problem s).ctrl = s.ctrl := by
  cases problem <;> rfl
@[simp] theorem accept_wrIgn (i : Instr) (problem : Option Err) (s : State) :
    (accept i problem s).status.wrIgn = s.status.wrIgn := by
  cases problem <;> rfl

@[simp] theorem effectOf_timeStep (i : Instr) (s : State) : (effectOf i s).ops.timeStep = s.ops.timeStep := by
  cases i <;> rfl
@[simp] theorem effectOf_window (i : Instr) (s : State) : (effectOf i s).ops.window = s.ops.window := by
  cases i <;> rfl

/-- The engine writes no operand register but `COUNTER`, unless to clear (R92). -/
theorem effectOf_ops_counter {i : Instr} (hi : i ≠ .clear) (s : State) :
    (effectOf i s).ops =
      { s.ops with counterHi := (effectOf i s).ops.counterHi, counterLo := (effectOf i s).ops.counterLo } := by
  cases i with
  | clear => exact absurd rfl hi
  | hotp | totp | verify => rfl

/-- Operands that differ in `COUNTER` only agree in everything `TOTP`, `VERIFY` and `CLEAR` read, and become the same once
it is stored (R89 to R92). -/
theorem setCounter_eq_of_sameButCounter {o p : Operands}
    (h : p = { o with counterHi := p.counterHi, counterLo := p.counterLo }) :
    (∀ v, p.setCounter v = o.setCounter v) ∧ p.time = o.time ∧ p.paddedKey = o.paddedKey ∧ p.token = o.token
      ∧ p.timeStep = o.timeStep ∧ p.window = o.window := by
  generalize p.counterHi = hi, p.counterLo = lo at h
  subst h
  exact ⟨fun _ => rfl, rfl, rfl, rfl, rfl, rfl⟩

/-- What a completion writes does not depend on the results, the flags or, but for `HOTP`, the counter before it (R92). -/
theorem effectOf_congr {i : Instr} {s t : State}
    (h : t.ops = { s.ops with counterHi := t.ops.counterHi, counterLo := t.ops.counterLo })
    (hhotp : i = .hotp → t.ops = s.ops) :
    (effectOf i s).ops = (effectOf i t).ops
      ∧ (i = .hotp ∨ i = .totp → (effectOf i s).res = (effectOf i t).res)
      ∧ (i = .verify → (effectOf i s).status.matched = (effectOf i t).status.matched) := by
  obtain ⟨hset, htime, hkey, htoken, hstep, hwindow⟩ := setCounter_eq_of_sameButCounter h
  cases i with
  | hotp =>
    refine ⟨(hhotp rfl).symm, fun _ => ?_, nofun⟩
    rw [effectOf, effectOf, hotpEffect_res, hotpEffect_res, hhotp rfl]
  | totp =>
    refine ⟨?_, fun _ => ?_, nofun⟩
    · rw [effectOf, effectOf, totpEffect_ops, totpEffect_ops, hset, htime, hstep]
    · rw [effectOf, effectOf, totpEffect_res, totpEffect_res, hkey, htime, hstep]
  | verify =>
    refine ⟨?_, nofun, fun _ => ?_⟩
    · rw [effectOf, effectOf, verifyEffect_ops, verifyEffect_ops, hset, htime, hstep]
    · rw [effectOf, effectOf, verifyEffect_status, verifyEffect_status, hkey, htime, hstep, hwindow, htoken]
  | clear =>
    refine ⟨?_, nofun, nofun⟩
    rw [effectOf, effectOf, clearEffect, clearEffect, h]

/-- Settles O19: acceptance and completion by what each writes, and a completion by what it reads. -/
theorem commandsShareTheirLimits : Obligations.CommandsShareTheirLimits := by
  refine ⟨fun s t i hs h => ?_, fun s t i hs ht h hhotp => ?_⟩
  · obtain hs | hs := hs
    · rw [exec_idle i s hs] at h
      obtain rfl := Host.Outcome.next.inj h
      simp
    · rw [exec_run i s hs] at h
      obtain rfl := Host.Outcome.next.inj h
      refine ⟨effectOf_timeStep i s, effectOf_window i s, effectOf_ctrl i s, effectOf_wrIgn i s, fun hidle => ?_,
        fun hi => effectOf_ops_counter hi s, ?_⟩
      · exact nomatch hidle.symm.trans hs
      · rintro rfl
        rfl
  · obtain ⟨hops, hres, hmatched⟩ := effectOf_congr h hhotp
    exact ⟨_, _, exec_run i s hs, exec_run i t ht, hops, hres, hmatched⟩

/-- Settles O20: `TOTP` left the base counter and the key in the operands, and `HOTP` computes from those again. -/
theorem totpThenHotpRepeatsTheCode : Obligations.TotpThenHotpRepeatsTheCode := by
  rintro s t hs ⟨-, hkey⟩ h
  rw [exec_run .totp s hs] at h
  obtain rfl := Host.Outcome.next.inj h
  have haccept := exec_accepted (i := .hotp) (s := finish (effectOf .totp s)) rfl hkey
  refine ⟨_, _, haccept, exec_run .hotp _ rfl, ?_, rfl, rfl, rfl⟩
  change (hotp s.ops.paddedKey (s.ops.setCounter (baseCounter s.ops.time s.ops.timeStep)).counter).registers
    = (totpEffect s).res
  rw [counter_setCounter, totpEffect_res]

/-- Key buffers that agree below `KEYLEN` give one padded key (R69). -/
theorem paddedKey_withKey {s : State} {k : Vector Word 16}
    (h : ∀ j < s.ops.keyLen.toNat, s.ops.keyByte j = (s.withKey k).ops.keyByte j) :
    (s.withKey k).ops.paddedKey = s.ops.paddedKey := by
  refine ext_byteAt (by simp) fun i hi => ?_
  rw [paddedKey_length] at hi
  rw [byteAt_paddedKey _ hi, byteAt_paddedKey _ hi]
  exact ite_congr rfl (fun hlt => (h i hlt).symm) fun _ => rfl

/-- A completion over another key buffer with the same padded key (R69, R88 to R91). -/
theorem effectOf_withKey {s : State} {k : Vector Word 16} (h : (s.withKey k).ops.paddedKey = s.ops.paddedKey) (i : Instr) :
    effectOf i (s.withKey k) =
      (effectOf i s).withKey (if i = .clear then Vector.replicate 16 0#32 else k) := by
  cases i with
  | hotp =>
    rw [effectOf, effectOf, hotpEffect, h]
    rfl
  | totp =>
    rw [effectOf, effectOf, totpEffect_eq, totpEffect_eq, h]
    rfl
  | verify =>
    rw [effectOf, effectOf, verifyEffect, h]
    rfl
  | clear => rfl

/-- Settles O30: every command sees the key buffer through the padded key. -/
theorem commandsIgnoreTheKeyTail : Obligations.CommandsIgnoreTheKeyTail := by
  intro s i key' hs _ h
  refine ⟨_, _, exec_run i s hs, exec_run i (s.withKey key') hs, ?_⟩
  rw [effectOf_withKey (paddedKey_withKey h)]
  exact ⟨rfl, rfl, rfl, rfl⟩

/-! ### The verdict of `VERIFY` -/

/-- The verdict of a completed `VERIFY`: the token is the code of a counter in the window (R82, R90). -/
theorem verify_matched_iff (s : State) :
    (finish (effectOf .verify s)).status.matched = true ↔
      ∃ c, InWindow (baseCounter s.ops.time s.ops.timeStep) s.ops.window.toNat c ∧ s.ops.tokLen = 6#32
        ∧ be32 s.ops.token0 ++ (be32 s.ops.token1).take 2 = (hotp s.ops.paddedKey c).str := by
  rw [finish_effectOf_verify]
  change windowMatch _ _ _ _ = true ↔ _
  rw [windowMatch_iff]
  simp only [equals_hotp_iff, Operands.token]

/-- Settles O21: a code is six decimal digits, so a token of another length or with another character is none. -/
theorem malformedTokenFailsToMatch : Obligations.MalformedTokenFailsToMatch := by
  intro s hs _ hbad
  refine ⟨_, exec_run .verify s hs, rfl, ?_, rfl, rfl, rfl, rfl⟩
  rw [← Bool.not_eq_true, verify_matched_iff]
  rintro ⟨c, -, hlen, hstr⟩
  obtain hne | ⟨b, hb, hdigit⟩ := hbad
  · exact hne hlen
  · exact hdigit (dec6_digit _ b (hstr ▸ hb))

/-- Settles O22: the counters in the window are the 64-bit numbers at most `WINDOW` away from the quotient. -/
theorem verifyAcceptsExactlyTheWindow : Obligations.VerifyAcceptsExactlyTheWindow := by
  intro s hs _ base
  refine ⟨_, exec_run .verify s hs, ?_⟩
  have hbase : (baseCounter s.ops.time s.ops.timeStep).toNat = base := baseCounter_toNat _ _
  rw [verify_matched_iff]
  constructor
  · rintro ⟨c, ⟨hlo, hhi⟩, hlen, hstr⟩
    rw [hbase] at hlo hhi
    refine ⟨hlen, c.toNat, c.isLt, hlo, hhi, ?_⟩
    rw [BitVec.ofNat_toNat, BitVec.setWidth_eq, hstr]
  · rintro ⟨hlen, c, hc, hlo, hhi, hstr⟩
    have hval : (BitVec.ofNat 64 c).toNat = c := by rw [BitVec.toNat_ofNat, Nat.mod_eq_of_lt hc]
    refine ⟨BitVec.ofNat 64 c, ⟨?_, ?_⟩, hlen, hstr⟩
    · rw [hbase, hval]
      exact hlo
    · rw [hbase, hval]
      exact hhi

end Sys2Proof.Machine
